-- ==== Sys2Proof/Word.lean ====
section
/-! DEFINITION. The word types of the practice3 CORE block (spec/00_scope.md R5, R8). -/

namespace Sys2Proof

/-- A byte of code memory: 8 bits (R5 "Byte size", 92_eei_decisions.md D28). -/
abbrev Byte := BitVec 8

/-- An instruction word: exactly 3 bytes, 24 bits (R5 WORD_BYTES, R60). -/
abbrev InstrWord := BitVec 24

/-- The 3-bit opcode tag (R5 TAG_BITS, R62). -/
abbrev Tag := BitVec 3

end Sys2Proof
end

