-- ==== Sys2Proof/Config.lean ====
section
/-! DEFINITION. What an implementation or a launch fixes (spec/00_scope.md R5) and the values the
spec leaves open. Nothing here changes while the block runs. -/

namespace Sys2Proof

/-- What the data cells hold at reset where no preset is listed: the parameter DATA_INIT
(R5, R31, 92_eei_decisions.md D8), written as plain data. Cells that differ from this fill are
listed in the state's data memory. -/
inductive DataFill where
  /-- DATA_INIT is OPEN: every cell holds a free value, one for each launch and address
  (log entry 1). -/
  | free (launch : Nat)
  /-- A launch whose premise is that every cell without a preset holds `v`. -/
  | uniform (v : Int)
deriving DecidableEq, Repr

/-- The parameters the spec calls "arguments of the model" (R5). -/
structure Params where
  /-- CODE_CAP: the size of code memory in bytes. -/
  codeCap : Nat
  /-- DATA_CAP: the size of data memory in cells. -/
  dataCap : Nat
  /-- STACK_DEPTH: `none` is unbounded, the default. -/
  stackDepth : Option Nat
  /-- DATA_INIT, but for the presets that the data memory lists. -/
  dataFill : DataFill
deriving DecidableEq, Repr

/-- The default parameters of R5: 65536 bytes, 65536 cells, an unbounded stack, DATA_INIT open. -/
def Params.standard : Params :=
  { codeCap := 65536, dataCap := 65536, stackDepth := none, dataFill := .free 0 }

/-- FREE VALUE (log entry 1). DATA_INIT of a launch at a cell address, where the launch does not
state it: the spec "does not assume that the other cells are zero" (D8). -/
opaque Config.dataInit : (launch : Nat) → (address : Nat) → Int

/-- FREE VALUE (log entry 2). The stack contents after a `StackUnderflow`, which are
"unspecified" (R96, D6, I7): applied to the state's count of free values drawn so far, the
faulting opcode's tag and the stack the handler found. -/
opaque Config.underflowStack : (count : Nat) → (tag : Tag) → (before : List Int) → List Int

end Sys2Proof
end

