-- ==== Sys2Proof/Syntax.lean ====
section
/-! DEFINITION. The instructions (spec/30_encoding.md R64, spec/opcode_table.json). -/

namespace Sys2Proof

/-- The four opcodes of the canonical dialect (R2, R64). -/
inductive Opcode where
  | loadConst
  | readMem
  | writeMem
  | lessOrEq
deriving DecidableEq, Repr

/-- One constructor for each row of spec/opcode_table.json. An operand is a natural number because
the handler rules are stated over one (92_eei_decisions.md D21); a decoded operand is below 65536
(R69), which is what `Instr.wf` checks. -/
inductive Instr where
  /-- Push the operand (R98). -/
  | loadConst (opnd : Nat)
  /-- Push the data cell the operand names (R105). -/
  | readMem (opnd : Nat)
  /-- Pop an address and a value and store; the operand is ignored (R106, R107). -/
  | writeMem (opnd : Nat)
  /-- Compare the data cell the operand names with the popped top (R115). -/
  | lessOrEq (opnd : Nat)
  /-- The all-zero word, the end of the program (R67, R83). -/
  | sentinel
deriving DecidableEq, Repr

end Sys2Proof
end

