-- ==== Sys2Proof/WellFormed.lean ====
section
/-! DEFINITION. The check on an instruction as syntax: what a word can carry (spec/30_encoding.md
R69). What the reference encoder keeps whole (R65) stands with the encoder, in Decode.lean. -/

namespace Sys2Proof

/-- The operand fits the 16-bit field the decoder exposes (R62, R69): the instruction is one that
some word decodes to. -/
def Instr.wf : Instr → Bool
  | .loadConst n => n < 65536
  | .readMem n => n < 65536
  | .writeMem n => n < 65536
  | .lessOrEq n => n < 65536
  | .sentinel => true

end Sys2Proof
end

