-- ==== Sys2Proof/Decode.lean ====
section
/-! DEFINITION. The decoder and the reference encoder (spec/30_encoding.md). -/

namespace Sys2Proof

/-- `LE3` (00_scope.md R10, 20_memory.md R42, R43): three bytes, lowest address first, as the
24-bit little-endian word. -/
def le3 (b0 b1 b2 : Byte) : InstrWord :=
  b0.setWidth 24 ||| (b1.setWidth 24 <<< 8) ||| (b2.setWidth 24 <<< 16)

/-- The bytes of a word, lowest address first (R66). -/
def wordBytes (w : InstrWord) : List Byte :=
  [w.extractLsb' 0 8, w.extractLsb' 8 8, w.extractLsb' 16 8]

/-- The tag field `w[2:0]` (R62). -/
def tagField (w : InstrWord) : Tag := w.extractLsb' 0 3

/-- The raw operand field `w[18:3]`, exposed "regardless of opcode" (R62); zero-extended (R9). -/
def opndField (w : InstrWord) : Nat := (w.extractLsb' 3 16).toNat

/-- The wire tags of R64. -/
def Opcode.tag : Opcode → Tag
  | .loadConst => 5
  | .readMem => 4
  | .writeMem => 2
  | .lessOrEq => 1

/-- The instruction of an opcode with an operand. -/
def Opcode.instr : Opcode → Nat → Instr
  | .loadConst, n => .loadConst n
  | .readMem, n => .readMem n
  | .writeMem, n => .writeMem n
  | .lessOrEq, n => .lessOrEq n

/-- The opcode of a tag, none for the tags 0, 3, 6 and 7 (R64, R68). -/
def opcodeOfTag (t : Tag) : Option Opcode :=
  match t.toNat with
  | 1 => some .lessOrEq
  | 2 => some .writeMem
  | 4 => some .readMem
  | 5 => some .loadConst
  | _ => none

/-- The decoder's verdict `UnknownOpcode(tag, opnd)` (R68, R70). -/
structure UnknownOpcode where
  tag : Tag
  opnd : Nat
deriving DecidableEq, Repr

/-- The decoder on a 24-bit word (R70): the sentinel is tested first and is the word 0 alone
(R67, D3); a known tag passes the 16-bit operand field on verbatim (R69). -/
def decodeWord (w : InstrWord) : Except UnknownOpcode Instr :=
  if w = 0 then .ok .sentinel
  else
    match opcodeOfTag (tagField w) with
    | some op => .ok (op.instr (opndField w))
    | none => .error { tag := tagField w, opnd := opndField w }

/-- Why a byte string does not start with an instruction. -/
inductive DecodeError where
  /-- The word's tag is no opcode (R68). -/
  | unknownOpcode (u : UnknownOpcode)
  /-- Fewer than 3 bytes: decode "requires 3 full bytes" (60_exceptions.md R128). The step's
  code-end check keeps this from ever arising in a run (R81). -/
  | truncated
deriving DecidableEq, Repr

/-- The decoder on bytes: a decoder always consumes 3 (R60). -/
def decode : List Byte → Except DecodeError (Instr × List Byte)
  | b0 :: b1 :: b2 :: rest =>
    match decodeWord (le3 b0 b1 b2) with
    | .ok i => .ok (i, rest)
    | .error u => .error (.unknownOpcode u)
  | _ => .error .truncated

/-- The operand widths of R65. They bind the encoder only. -/
def Opcode.width : Opcode → Nat
  | .loadConst => 9
  | .readMem => 13
  | .writeMem => 14
  | .lessOrEq => 13

/-- The operand fits its opcode's declared width (R65), so the reference encoder keeps it whole. -/
def Instr.encodable : Instr → Bool
  | .loadConst n => n < 2 ^ Opcode.loadConst.width
  | .readMem n => n < 2 ^ Opcode.readMem.width
  | .writeMem n => n < 2 ^ Opcode.writeMem.width
  | .lessOrEq n => n < 2 ^ Opcode.lessOrEq.width
  | .sentinel => true

/-- `mask(n)` of R9. -/
def mask (n : Nat) : Nat := (1 <<< n) - 1

/-- A word from a tag and a value placed from bit 3 up (R63, R66). -/
def packWord (t : Tag) (v : Nat) : InstrWord := t.setWidth 24 ||| (BitVec.ofNat 24 v <<< 3)

/-- The reference encoder on words (R66): the operand is masked to the opcode's width, silently. -/
def encodeWord (op : Opcode) (v : Nat) : InstrWord := packWord op.tag (v &&& mask op.width)

/-- The reference encoder `encode(op, v)` (R66). -/
def encodeOp (op : Opcode) (v : Nat) : List Byte := wordBytes (encodeWord op v)

/-- The reference encoder on instructions. The sentinel's word is 0 (R67). -/
def encode : Instr → List Byte
  | .loadConst n => encodeOp .loadConst n
  | .readMem n => encodeOp .readMem n
  | .writeMem n => encodeOp .writeMem n
  | .lessOrEq n => encodeOp .lessOrEq n
  | .sentinel => wordBytes 0

/-- The hand-made word that carries the whole 16-bit operand field (R69), with bits 23:19 zero:
the decoder's inverse, where `encode` is the assembler's. -/
def verbatimWord : Instr → InstrWord
  | .loadConst n => packWord Opcode.loadConst.tag (n % 65536)
  | .readMem n => packWord Opcode.readMem.tag (n % 65536)
  | .writeMem n => packWord Opcode.writeMem.tag (n % 65536)
  | .lessOrEq n => packWord Opcode.lessOrEq.tag (n % 65536)
  | .sentinel => 0

/-- The bytes of `verbatimWord`. -/
def encodeVerbatim (i : Instr) : List Byte := wordBytes (verbatimWord i)

/-- The 3 bytes of an instruction whose bits are `w`, numbered as spec/opcode_table.json numbers
them, every bit from `nbits` up being 0. -/
def tableBytes (nbits w : Nat) : List Byte := wordBytes (BitVec.ofNat 24 (w % 2 ^ nbits))

/-- The instruction the decoder reads from a table word, none where it refuses. -/
def decodeTableWord (nbits w : Nat) : Option Instr :=
  match decode (tableBytes nbits w) with
  | .ok (i, _) => some i
  | .error _ => none

end Sys2Proof
end

