-- ==== Sys2Proof/Machine/State.lean ====
section
/-! DEFINITION. The architectural state of one block (spec/10_state.md R20 to R34), the reasons a
step can stop, and the state after reset. -/

namespace Sys2Proof.Machine

/-- The execution state (R27). -/
inductive RunState where
  /-- A step may be taken. -/
  | running
  /-- The run ended cleanly: the sentinel, or the end of code memory (R90). -/
  | halted
  /-- A fatal error occurred (R129). -/
  | faulted
deriving DecidableEq, Repr

/-- The fault kinds of R120. Every one is fatal. -/
inductive FaultKind where
  | unknownOpcode
  | stackUnderflow
  | outOfBoundsRead
  | outOfBoundsWrite
  | stackOverflow
deriving DecidableEq, Repr

/-- The fault record (R28, R127). -/
structure FaultRecord where
  kind : FaultKind
  /-- The address of the faulting word. -/
  ip : Nat
  /-- The decoded tag. -/
  tag : Tag
  /-- The decoded operand field; below 65536 in every run (R69, R28). -/
  operand : Nat
  /-- The offending cell address, for the out-of-bounds kinds. -/
  address : Option Int
deriving DecidableEq, Repr

/-- The state: the six components of R20, the parameters of R5 as plain data that no step changes,
and one counter of the model's own. -/
structure State where
  /-- CODE_CAP, DATA_CAP, STACK_DEPTH and DATA_INIT's fill (R5; log entry 3). -/
  params : Params
  /-- The execution state (R27). -/
  run : RunState
  /-- The instruction pointer, a natural number that never wraps (R22, D16). -/
  ip : Nat
  /-- The operand stack, bottom first (R20, R25, R12). -/
  stack : List Int
  /-- Code memory (R30): the bytes that are not zero, by rising address. -/
  code : List Host.Cell
  /-- Data memory (R31): the cells that differ from DATA_INIT's fill, by rising address. -/
  data : List (Nat × Int)
  /-- The fault record (R28). -/
  fault : Option FaultRecord
  /-- The model's own: how many free values have been drawn (log entry 2). -/
  freeCount : Nat
deriving DecidableEq, Repr

/-- Why a step does not answer a next state. The spec's own faults are no such stop: they are next
states with `run = faulted` (R129). A step is stuck exactly where the spec says there is no step
(R80). -/
inductive Fault where
  /-- `step` in the terminal state `Halted` (R80, R90). Safe: the hardware takes no step either. -/
  | haltedNoStep
  /-- `step` in the terminal state `Faulted` (R80, R130). Safe: the hardware takes no step either. -/
  | faultedNoStep
deriving DecidableEq, Repr

/-- Why a step has no meaning. -/
inductive Refusal where
  /-- An arm of `exec` without a meaning yet. No arm raises it: every instruction is modelled. Safe. -/
  | notModelled (mnemonic : String)
deriving DecidableEq, Repr

/-- The machine right after reset, with no program loaded and no preset (R34, R140): Running at
code address 0, an empty stack, no fault, code memory all zero, data memory DATA_INIT. -/
def State.reset : State :=
  { params := Params.standard
    run := .running
    ip := 0
    stack := []
    code := []
    data := []
    fault := none
    freeCount := 0 }

end Sys2Proof.Machine
end

