-- ==== Sys2Proof/Machine/Flags.lean ====
section
/-! DEFINITION. The block has no flags, condition codes or predicates (spec/10_state.md R24). The one
comparison it makes is reported as an integer on the stack. -/

namespace Sys2Proof.Machine

/-- The comparison result of R115: 1 if `left <= right`, else 0, compared as signed integers. -/
def comparison (left right : Int) : Int := if left ≤ right then 1 else 0

end Sys2Proof.Machine
end

