-- ==== Sys2Proof/Machine/Operands.lean ====
section
/-! DEFINITION. The operand forms (spec/20_memory.md R47, R48): an immediate value, an immediate
cell address, and a popped cell address. -/

namespace Sys2Proof.Machine

/-- The operand field as a value or as a cell address: widened to an integer, its value unchanged
(R48; nothing sign-extends, R9). -/
def immediate (opnd : Nat) : Int := Int.ofNat opnd

/-- Address translation (R47): the identity map with the bounds check `0 <= a < DATA_CAP`. The
cell an integer names, none where it is out of bounds; a negative one is (D5). -/
def translate (p : Params) (a : Int) : Option Nat :=
  if 0 ≤ a ∧ a < Int.ofNat p.dataCap then some a.toNat else none

end Sys2Proof.Machine
end

