-- ==== Sys2Proof/Machine/Ops.lean ====
section
/-! DEFINITION. The shared operations: memories, stack unit, fetch, halting, taking a fault,
advancing. -/

namespace Sys2Proof.Machine

/-! ### Sparse memories in canonical form -/

/-- What a memory holds at an address; `init` is what an unlisted address reads as. -/
def cellRead {α : Type} (init : Nat → α) : List (Nat × α) → Nat → α
  | [], a => init a
  | (k, v) :: m, a => if a = k then v else cellRead init m a

/-- The memory with nothing listed at an address. -/
def cellErase {α : Type} (a : Nat) (m : List (Nat × α)) : List (Nat × α) :=
  m.filter (fun e => e.1 != a)

/-- List a value at an address, before the first higher one. -/
def cellInsert {α : Type} (a : Nat) (v : α) : List (Nat × α) → List (Nat × α)
  | [] => [(a, v)]
  | (k, w) :: m => if a < k then (a, v) :: (k, w) :: m else (k, w) :: cellInsert a v m

/-- Write one address. Writing what an unlisted address reads as removes the entry. -/
def cellWrite {α : Type} [DecidableEq α] (init : Nat → α) (m : List (Nat × α)) (a : Nat) (v : α) :
    List (Nat × α) :=
  if v = init a then cellErase a m else cellInsert a v (cellErase a m)

/-- The canonical form of a memory of `cap` addresses: addresses strictly rising and below `cap`,
no entry equal to what an unlisted address reads as. -/
abbrev cellsWf {α : Type} (init : Nat → α) (cap : Nat) (m : List (Nat × α)) : Prop :=
  m.Pairwise (fun x y => x.1 < y.1) ∧ ∀ e ∈ m, e.1 < cap ∧ e.2 ≠ init e.1

/-- What an unlisted code address reads as: "unused trailing bytes are zero" (R30). -/
def initialCode (_a : Nat) : Byte := 0

/-- What an unlisted data address reads as: DATA_INIT at that cell (R31, D8; log entry 1). -/
def initialData (p : Params) (a : Nat) : Int :=
  match p.dataFill with
  | .free launch => Config.dataInit launch a
  | .uniform v => v

/-- A byte of code memory (R30). -/
def codeByte (s : State) (a : Nat) : Byte := cellRead initialCode s.code a

/-- A cell of data memory, `MemRead(DATA, a, 1)` (R45). -/
def dataCell (s : State) (a : Nat) : Int := cellRead (initialData s.params) s.data a

/-- `MemWrite(DATA, a, 1, v)` (R46). -/
def setDataCell (a : Nat) (v : Int) (s : State) : State :=
  { s with data := cellWrite (initialData s.params) s.data a v }

/-- The host's write of one byte of code memory before the start (R41, R142); there is no byte at
or beyond CODE_CAP. No instruction uses it. -/
def setCodeByte (a : Nat) (b : Byte) (s : State) : State :=
  { s with code := if a < s.params.codeCap then cellWrite initialCode s.code a b else s.code }

/-- Both memories are in canonical form. -/
abbrev Memory.wf (s : State) : Prop :=
  cellsWf initialCode s.params.codeCap s.code ∧
    cellsWf (initialData s.params) s.params.dataCap s.data

/-! ### Fetch -/

/-- The code-end check of R81: the word at `ip` would pass the end of code memory. -/
def codeEnd (s : State) : Bool := decide (s.params.codeCap < s.ip + 3)

/-- The three bytes at `ip`, lowest address first (R42, R82). -/
def fetchBytes (s : State) : List Byte :=
  [codeByte s s.ip, codeByte s (s.ip + 1), codeByte s (s.ip + 2)]

/-- The word at `ip`, `MemRead(CODE, ip, 3)` (R42, R61, R82). -/
def fetchWord (s : State) : InstrWord :=
  le3 (codeByte s s.ip) (codeByte s (s.ip + 1)) (codeByte s (s.ip + 2))

/-! ### The ends of a step -/

/-- `halt`: `run <- Halted` and nothing else (R81, R83, R90). -/
def halt (s : State) : State := { s with run := .halted }

/-- Phase 5: `ip <- ip + 3`; `run` stays as it is (R86). -/
def advance (s : State) : State := { s with ip := s.ip + 3 }

/-- Replace the stack. -/
def setStack (st : List Int) (s : State) : State := { s with stack := st }

/-- Taking a fault (R127, R129): `run <- Faulted` and the record; nothing is saved to memory or
stack, nothing is vectored, `ip` is not advanced. -/
def raise (kind : FaultKind) (tag : Tag) (opnd : Nat) (address : Option Int) (s : State) : State :=
  { s with
    run := .faulted
    fault := some { kind := kind, ip := s.ip, tag := tag, operand := opnd, address := address } }

/-- Taking `StackUnderflow` (R96, R122): the stack contents afterwards are unspecified, so they
become a free value (log entry 2). -/
def raiseUnderflow (tag : Tag) (opnd : Nat) (s : State) : State :=
  { raise .stackUnderflow tag opnd none s with
    stack := Config.underflowStack s.freeCount tag s.stack
    freeCount := s.freeCount + 1 }

/-- Taking `UnknownOpcode` (R84, R121): before any handler, so everything else is unchanged. -/
def raiseUnknownOpcode (u : UnknownOpcode) (s : State) : State :=
  raise .unknownOpcode u.tag u.opnd none s

/-- The end of a handler (R86, R87): `ok` is a handler that completed, whose step advances `ip`;
`error` is one that raised, whose state stands as the fault left it. -/
def finish : Except State State → Host.Outcome State Fault Refusal
  | .ok s => .next (advance s)
  | .error s => .next s

/-! ### The stack unit -/

/-- `depth()` (R11). -/
def depth (s : State) : Nat := s.stack.length

/-- The stack has reached a finite STACK_DEPTH (R95, D9). -/
def stackFull (s : State) : Bool :=
  match s.params.stackDepth with
  | none => false
  | some n => decide (n ≤ depth s)

/-- `push(v)` (R95): a new top entry, or `StackOverflow` on a full stack of finite depth. -/
def push (op : Opcode) (opnd : Nat) (v : Int) (s : State) : Except State State :=
  if stackFull s then .error (raise .stackOverflow op.tag opnd none s)
  else .ok (setStack (s.stack ++ [v]) s)

/-- One `pop()` under the check `depth() >= 1` (R96): the top entry and the state without it. -/
def popOne (op : Opcode) (opnd : Nat) (s : State) : Except State (Int × State) :=
  match s.stack.reverse with
  | v :: rest => .ok (v, setStack rest.reverse s)
  | [] => .error (raiseUnderflow op.tag opnd s)

/-- Two `pop()`s under the check `depth() >= 2` (R96): the first popped entry, the second, and the
state without them. -/
def popTwo (op : Opcode) (opnd : Nat) (s : State) : Except State (Int × Int × State) :=
  match s.stack.reverse with
  | first :: second :: rest => .ok (first, second, setStack rest.reverse s)
  | _ => .error (raiseUnderflow op.tag opnd s)

/-! ### Data accesses with the bounds check -/

/-- Read a data cell through the bounds check, or `OutOfBoundsRead` (R47, R105, R115, R123). -/
def loadCell (op : Opcode) (opnd : Nat) (a : Int) (s : State) : Except State Int :=
  match translate s.params a with
  | some c => .ok (dataCell s c)
  | none => .error (raise .outOfBoundsRead op.tag opnd (some a) s)

/-- Write a data cell through the bounds check, or `OutOfBoundsWrite` (R47, R106, R124). -/
def storeCell (op : Opcode) (opnd : Nat) (a v : Int) (s : State) : Except State State :=
  match translate s.params a with
  | some c => .ok (setDataCell c v s)
  | none => .error (raise .outOfBoundsWrite op.tag opnd (some a) s)

/-! ### Status outputs -/

/-- The numeric fault codes of R120 (D7). -/
def FaultKind.code : FaultKind → Nat
  | .unknownOpcode => 1
  | .stackUnderflow => 2
  | .outOfBoundsRead => 3
  | .outOfBoundsWrite => 4
  | .stackOverflow => 5

/-- The status output's fault code: 0 is no fault (R120, R6). -/
def faultCode (s : State) : Nat :=
  match s.fault with
  | none => 0
  | some r => r.kind.code

end Sys2Proof.Machine
end

