-- ==== Sys2Proof/Machine/Compare.lean ====
section
/-! DEFINITION. LessOrEq (spec/43_compare.md). -/

namespace Sys2Proof.Machine

/-- LessOrEq (R115): pop `right`, then read `left` through the added bounds check (D4), then push
whether `left <= right`. -/
def execLessOrEq (opnd : Nat) (s : State) : Host.Outcome State Fault Refusal :=
  finish do
    let (right, s1) ← popOne .lessOrEq opnd s
    let left ← loadCell .lessOrEq opnd (immediate opnd) s1
    push .lessOrEq opnd (comparison left right) s1

end Sys2Proof.Machine
end

