-- ==== Sys2Proof/Machine/Control.lean ====
section
/-! DEFINITION. The sentinel (spec/40_cycle.md R83). -/

namespace Sys2Proof.Machine

/-- The sentinel (R83): `run <- Halted`; `ip` stays at its address. -/
def execSentinel (s : State) : Host.Outcome State Fault Refusal := .next (halt s)

end Sys2Proof.Machine
end

