-- ==== Sys2Proof/Machine/Memory.lean ====
section
/-! DEFINITION. ReadMem and WriteMem (spec/42_memory_ops.md). -/

namespace Sys2Proof.Machine

/-- ReadMem (R105): the bounds check, then push the cell the operand names. -/
def execReadMem (opnd : Nat) (s : State) : Host.Outcome State Fault Refusal :=
  finish do
    let v ← loadCell .readMem opnd (immediate opnd) s
    push .readMem opnd v s

/-- WriteMem (R106): pop the address, pop the value, then the bounds check, then the store. The
operand reaches nothing but a fault record (R107). -/
def execWriteMem (opnd : Nat) (s : State) : Host.Outcome State Fault Refusal :=
  finish do
    let (a, v, s1) ← popTwo .writeMem opnd s
    storeCell .writeMem opnd a v s1

end Sys2Proof.Machine
end

