-- ==== Sys2Proof/Machine/Stack.lean ====
section
/-! DEFINITION. LoadConst (spec/41_stack.md). -/

namespace Sys2Proof.Machine

/-- LoadConst (R98): push the operand, zero-extended. -/
def execLoadConst (opnd : Nat) (s : State) : Host.Outcome State Fault Refusal :=
  finish (push .loadConst opnd (immediate opnd) s)

end Sys2Proof.Machine
end

