-- ==== Sys2Proof/Machine/Dispatch.lean ====
section
/-! DEFINITION. The dispatch multiplexer (spec/40_cycle.md R85): one arm per instruction. -/

namespace Sys2Proof.Machine

def exec (i : Instr) (s : State) : Host.Outcome State Fault Refusal :=
  match i with
  | .loadConst opnd => Sys2Proof.Machine.execLoadConst opnd s
  | .readMem opnd => Sys2Proof.Machine.execReadMem opnd s
  | .writeMem opnd => Sys2Proof.Machine.execWriteMem opnd s
  | .lessOrEq opnd => Sys2Proof.Machine.execLessOrEq opnd s
  | .sentinel => Sys2Proof.Machine.execSentinel s

end Sys2Proof.Machine
end

