-- ==== Sys2Proof/Machine/Step.lean ====
section
/-! DEFINITION. One step of the block (spec/40_cycle.md R88). -/

namespace Sys2Proof.Machine

/-- One step (R80, R88): only while Running; the code-end check, fetch and decode, then the
sentinel or a handler through `exec`, or `UnknownOpcode`. -/
def step (s : State) : Host.Outcome State Fault Refusal :=
  match s.run with
  | .halted => .fault .haltedNoStep
  | .faulted => .fault .faultedNoStep
  | .running =>
    if codeEnd s then .next (halt s)
    else
      match decodeWord (fetchWord s) with
      | .ok i => exec i s
      | .error u => .next (raiseUnknownOpcode u s)

/-- The state with a table word's instruction at `ip`, ready to run: its 3 bytes in code memory
and the block Running with no fault (the host's load and start, R142, R145). -/
def State.withFetchWord (s : State) (nbits w : Nat) : State :=
  let started := { s with run := .running, fault := none }
  match tableBytes nbits w with
  | [b0, b1, b2] =>
    setCodeByte (s.ip + 2) b2 (setCodeByte (s.ip + 1) b1 (setCodeByte s.ip b0 started))
  | _ => started

end Sys2Proof.Machine
end

