-- ==== Sys2Proof/Machine/Assembler.lean ====
section
/-! DEFINITION. The wire-format side of the assembler (spec/30_encoding.md R74, R75): mnemonics and
the concatenation of encoded words. It is host-side and no part of a step. -/

namespace Sys2Proof.Machine

/-- The mnemonics of R74. -/
def opcodeOfMnemonic (m : String) : Option Opcode :=
  if m = "load_const" then some .loadConst
  else if m = "read_mem" then some .readMem
  else if m = "write_mem" then some .writeMem
  else if m = "less_or_eq" then some .lessOrEq
  else none

/-- Why assembly fails; no partial output is committed. -/
inductive AssembleError where
  /-- A mnemonic that is none of the four (R74, R126). -/
  | unknownMnemonic (mnemonic : String)
  /-- A negative operand, which is refused (D24). -/
  | negativeOperand (operand : Int)
deriving DecidableEq, Repr

/-- Encode each record and append the bytes in program order (R75, R60). -/
def assemble : List (String × Int) → Except AssembleError (List Byte)
  | [] => .ok []
  | (m, v) :: rest =>
    match opcodeOfMnemonic m with
    | none => .error (.unknownMnemonic m)
    | some op =>
      if v < 0 then .error (.negativeOperand v)
      else
        match assemble rest with
        | .ok bytes => .ok (encodeOp op v.toNat ++ bytes)
        | .error e => .error e

end Sys2Proof.Machine
end

