-- ==== Sys2Proof/Machine/Launch.lean ====
section
/-! DEFINITION. What the host does to the block before a run and reads from it after one
(spec/70_reset_and_hazards.md R140 to R148). The host has no move while the block is Running (R145). -/

namespace Sys2Proof.Machine

/-- Why a launch is refused: no run starts. -/
inductive LaunchError where
  /-- The program is longer than CODE_CAP (R142, D11). -/
  | programTooLong
  /-- A preset names a cell at or beyond DATA_CAP, where DATA_INIT has no value (log entry 8). -/
  | presetOutOfRange
deriving DecidableEq, Repr

/-- The listed code bytes of a program copied in from address `a` upward (R142). -/
def imageCells (a : Nat) : List Byte → List Host.Cell
  | [] => []
  | b :: bs => if b = 0 then imageCells (a + 1) bs else (a, b) :: imageCells (a + 1) bs

/-- Data memory with the presets written over DATA_INIT's fill, in order (R143). -/
def presetCells (p : Params) (presets : List (Nat × Int)) : List (Nat × Int) :=
  presets.foldl (fun m e => cellWrite (initialData p) m e.1 e.2) []

/-- Reset with loading (R140, R142, R143): the state a run starts from. -/
def launch (p : Params) (program : List Byte) (presets : List (Nat × Int)) :
    Except LaunchError State :=
  if p.codeCap < program.length then .error .programTooLong
  else if presets.all (fun e => decide (e.1 < p.dataCap)) then
    .ok
      { params := p
        run := .running
        ip := 0
        stack := []
        code := imageCells 0 program
        data := presetCells p presets
        fault := none
        freeCount := 0 }
  else .error .presetOutOfRange

/-- What the block gives back after a run, apart from data memory (R145, R147). -/
structure ReadBack where
  run : RunState
  fault : Option FaultRecord
  ip : Nat
  /-- The final stack, none after `StackUnderflow` (R147). -/
  stack : Option (List Int)
deriving DecidableEq, Repr

/-- The stack a claim may read (R147): none after `StackUnderflow`. -/
def observedStack (s : State) : Option (List Int) :=
  match s.fault with
  | some { kind := .stackUnderflow, .. } => none
  | _ => some s.stack

/-- Read back after the end of a run; nothing while Running (R145, R146). -/
def readBack (s : State) : Option ReadBack :=
  match s.run with
  | .running => none
  | _ => some { run := s.run, fault := s.fault, ip := s.ip, stack := observedStack s }

/-- Read back one cell of data memory after the end of a run (R145, R147). -/
def readBackCell (s : State) (a : Nat) : Option Int :=
  match s.run with
  | .running => none
  | _ => (translate s.params (Int.ofNat a)).map (dataCell s)

/-- Why an export fails. -/
inductive ExportError where
  /-- `start > end` (R126, R148). -/
  | invalidRange
  /-- The run has not ended, so the host has no move (R145). -/
  | stillRunning
deriving DecidableEq, Repr

/-- The records of `n` cells from `a` upward. -/
def exportCells (s : State) (a : Nat) : Nat → List (Nat × Int)
  | 0 => []
  | n + 1 => (a, dataCell s a) :: exportCells s (a + 1) n

/-- Memory export over the inclusive range `[start, last]` (R148, D23): from `start` to
`min(last, DATA_CAP - 1)`, ascending. -/
def exportRange (s : State) (start last : Nat) : Except ExportError (List (Nat × Int)) :=
  match s.run with
  | .running => .error .stillRunning
  | _ =>
    if last < start then .error .invalidRange
    else .ok (exportCells s start (min (last + 1) s.params.dataCap - start))

end Sys2Proof.Machine
end

