-- ==== Sys2Proof/Safety.lean ====
section
/-! DEFINITION. What counts as the end of a run, and the invariants a run keeps, in the terms the
statements use. -/

namespace Sys2Proof.Machine

/-- The value of three bytes, the lowest address first, least significant (spec/00_scope.md R10). -/
def bytesNumber (b0 b1 b2 : Byte) : Nat := b0.toNat + 256 * b1.toNat + 65536 * b2.toNat

/-- The value of the word at `ip` (spec/30_encoding.md R61). -/
def wordNumber (s : State) : Nat :=
  bytesNumber (codeByte s s.ip) (codeByte s (s.ip + 1)) (codeByte s (s.ip + 2))

/-- The stack can take one more entry (spec/41_stack.md R95): always, unless STACK_DEPTH is finite. -/
abbrev HasRoom (s : State) : Prop := ∀ d, s.params.stackDepth = some d → depth s < d

/-- The stack is within a finite STACK_DEPTH. -/
abbrev WithinDepth (s : State) : Prop := ∀ d, s.params.stackDepth = some d → depth s ≤ d

/-- The run has ended (spec/70_reset_and_hazards.md R146). -/
abbrev Ended (s : State) : Prop := s.run ≠ .running

/-- The stack is one the spec states: no `StackUnderflow` has left it unspecified (R96, R147). -/
abbrev StackStated (s : State) : Prop := ∀ r, s.fault = some r → r.kind ≠ .stackUnderflow

/-- The kinds whose record carries an address (R120, R127). -/
abbrev OutOfBounds (k : FaultKind) : Prop := k = .outOfBoundsRead ∨ k = .outOfBoundsWrite

/-- What holds in every state of a run. -/
structure Inv (s : State) : Prop where
  /-- `ip` is a multiple of 3 (R23). -/
  ipAligned : s.ip % 3 = 0
  /-- `ip <= CODE_CAP` (R23). -/
  ipInCode : s.ip ≤ s.params.codeCap
  /-- Both memories are in canonical form and hold nothing outside their capacity (R40). -/
  memory : Memory.wf s
  /-- There is a fault record exactly in `Faulted` (R28). -/
  faultedIff : s.run = .faulted ↔ s.fault ≠ none
  /-- The record's fields are what R28 and R127 say of them. -/
  record : ∀ r, s.fault = some r →
    r.ip = s.ip ∧ r.operand < 65536 ∧ (r.address ≠ none ↔ OutOfBounds r.kind)
  /-- The depth never exceeds the number of words executed (R26). -/
  depthByWords : StackStated s → 3 * depth s ≤ s.ip
  /-- The depth never exceeds a finite STACK_DEPTH (R95). -/
  depthByLimit : StackStated s → WithinDepth s

/-- A value fits a signed width (92_eei_decisions.md D10). -/
abbrev FitsBits (bits : Nat) (v : Int) : Prop := -(2 ^ (bits - 1)) ≤ v ∧ v < 2 ^ (bits - 1)

/-- Every value the block holds fits a signed width of `bits` (D10). -/
abbrev ValuesFit (bits : Nat) (s : State) : Prop :=
  (∀ a, a < s.params.dataCap → FitsBits bits (dataCell s a)) ∧
    (StackStated s → ∀ v ∈ s.stack, FitsBits bits v)

end Sys2Proof.Machine
end

