-- ==== Sys2Proof/Certificates/Slice0/Obligations.lean ====
section
/-! DEFINITION. The statements for the provers. Each docstring names the rule of spec/ the statement
formalises. -/

open Sys2Proof Sys2Proof.Machine

/-! ### Encoding -/

/-- Seven words written out in 30_encoding.md's patterns and what the decoder answers on them: six
decode to an instruction, and the last, a non-zero word with tag 0, is `UnknownOpcode`, which is the
spec's own decision D3 (log entry 15) (95_test_vectors.md S1, S8, D1, D3, D9). -/
def Obligations.SampleWordsDecode : Prop :=
  decode [0x55, 0x01, 0x00] = .ok (.loadConst 42, []) ∧
    decode [0xFD, 0xFF, 0x07] = .ok (.loadConst 65535, []) ∧
    decode [0xFC, 0xFF, 0x00] = .ok (.readMem 8191, []) ∧
    decode [0xFA, 0xFF, 0x01] = .ok (.writeMem 16383, []) ∧
    decode [0x09, 0x00, 0x00] = .ok (.lessOrEq 1, []) ∧
    decode [0x00, 0x00, 0x00] = .ok (.sentinel, []) ∧
    decode [0x00, 0x00, 0x08] = .error (.unknownOpcode { tag := 0, opnd := 0 })

/-- The decoder gives exactly one of three verdicts on any 3 bytes, by the whole word and its tag,
and passes the 16-bit field on verbatim (30_encoding.md section 5). That a non-zero word with tag 0
is `UnknownOpcode` is the spec's own decision D3. -/
def Obligations.DecoderVerdicts : Prop :=
  ∀ (b0 b1 b2 : Byte) (rest : List Byte),
    (bytesNumber b0 b1 b2 = 0 → decode (b0 :: b1 :: b2 :: rest) = .ok (.sentinel, rest)) ∧
    (bytesNumber b0 b1 b2 % 8 = 5 → decode (b0 :: b1 :: b2 :: rest) =
      .ok (.loadConst (bytesNumber b0 b1 b2 / 8 % 65536), rest)) ∧
    (bytesNumber b0 b1 b2 % 8 = 4 → decode (b0 :: b1 :: b2 :: rest) =
      .ok (.readMem (bytesNumber b0 b1 b2 / 8 % 65536), rest)) ∧
    (bytesNumber b0 b1 b2 % 8 = 2 → decode (b0 :: b1 :: b2 :: rest) =
      .ok (.writeMem (bytesNumber b0 b1 b2 / 8 % 65536), rest)) ∧
    (bytesNumber b0 b1 b2 % 8 = 1 → decode (b0 :: b1 :: b2 :: rest) =
      .ok (.lessOrEq (bytesNumber b0 b1 b2 / 8 % 65536), rest)) ∧
    (bytesNumber b0 b1 b2 ≠ 0 → bytesNumber b0 b1 b2 % 8 ∈ [0, 3, 6, 7] →
      decode (b0 :: b1 :: b2 :: rest) =
        .error (.unknownOpcode
          { tag := BitVec.ofNat 3 (bytesNumber b0 b1 b2 % 8)
            opnd := bytesNumber b0 b1 b2 / 8 % 65536 }))

/-- Fewer than 3 bytes hold no word: a decoder always consumes 3 (30_encoding.md section 1). -/
def Obligations.ShortBytesTruncated : Prop :=
  ∀ bytes : List Byte, bytes.length < 3 ↔ decode bytes = .error .truncated

/-- The reference encoder (R66): its words as numbers, with the tags of R64 and the widths of R65
written out, and their bytes, lowest address first. -/
def Obligations.EncoderWordLayout : Prop :=
  ∀ v : Nat,
    (encodeWord .loadConst v).toNat = 5 + 8 * (v % 512) ∧
    (encodeWord .readMem v).toNat = 4 + 8 * (v % 8192) ∧
    (encodeWord .writeMem v).toNat = 2 + 8 * (v % 16384) ∧
    (encodeWord .lessOrEq v).toNat = 1 + 8 * (v % 8192) ∧
    ∀ op : Opcode, (encodeOp op v).map BitVec.toNat =
      [(encodeWord op v).toNat % 256, (encodeWord op v).toNat / 256 % 256,
        (encodeWord op v).toNat / 65536]

/-- The round trip of the reference encoder (30_encoding.md section 5, the rule after R70): inside the
width, and, which the spec marks as derived, outside it and never the sentinel. -/
def Obligations.ReferenceEncoderRoundTrip : Prop :=
  ∀ (op : Opcode) (v : Nat) (rest : List Byte),
    (v < 2 ^ op.width → decode (encodeOp op v ++ rest) = .ok (op.instr v, rest)) ∧
    decode (encodeOp op v ++ rest) = .ok (op.instr (v % 2 ^ op.width), rest) ∧
    encodeWord op v ≠ 0

/-- Every instruction a word can carry comes back from its whole-operand word, at every operand of
the 16-bit field the decoder exposes (30_encoding.md sections 2 and 5). The whole-operand encoder is
the model's own (log entry 7). -/
def Obligations.WholeOperandRoundTrip : Prop :=
  ∀ (i : Instr) (rest : List Byte), i.wf = true → decode (encodeVerbatim i ++ rest) = .ok (i, rest)

/-- The other direction: what a word decodes to is well formed, and its whole-operand word is the
word with the ignored bits 23:19 cleared (30_encoding.md sections 2 and 6). The whole-operand
encoder is the model's own (log entry 7). -/
def Obligations.DecodedWordIsRecovered : Prop :=
  ∀ (w : InstrWord) (i : Instr), decodeWord w = .ok i →
    i.wf = true ∧ (verbatimWord i).toNat = w.toNat % 2 ^ 19

/-- Bits 23:19 matter to the sentinel test alone (30_encoding.md section 2). -/
def Obligations.HighBitsIgnored : Prop :=
  ∀ w w' : InstrWord, w ≠ 0 → w' ≠ 0 → w.toNat % 2 ^ 19 = w'.toNat % 2 ^ 19 →
    decodeWord w = decodeWord w'

/-- An assembled program has 3 bytes a record, and word `k`, at byte `3k`, decodes to record `k`
with its operand masked (30_encoding.md sections 1 and 7). That an assembled record never has a
negative operand is the spec's decision D24 (log entry 19). -/
def Obligations.AssembledProgramDecodes : Prop :=
  ∀ (records : List (String × Int)) (bytes : List Byte), assemble records = .ok bytes →
    bytes.length = 3 * records.length ∧
    ∀ (k : Nat) (m : String) (v : Int), records[k]? = some (m, v) →
      ∃ op, opcodeOfMnemonic m = some op ∧ 0 ≤ v ∧
        decode (bytes.drop (3 * k)) =
          .ok (op.instr (v.toNat % 2 ^ op.width), bytes.drop (3 * (k + 1)))

/-- Assembly fails exactly on an unknown mnemonic (30_encoding.md section 7) or a negative operand (the
spec's decision D24). -/
def Obligations.AssemblerRefusesExactly : Prop :=
  ∀ records : List (String × Int),
    (∃ e, assemble records = .error e) ↔
      ∃ r ∈ records, r.1 ∉ ["load_const", "read_mem", "write_mem", "less_or_eq"] ∨ r.2 < 0

/-! ### The step -/

/-- A step at a word inside code memory that decodes to an instruction fetches it and dispatches to
it (40_cycle.md section 2, phases 2 and 4). That `step` adds nothing to `exec` is the model's choice
(log entry 13): the spec puts the advance of `ip` in the step, the model puts it in `exec`. -/
def Obligations.StepRunsDecodedInstruction : Prop :=
  ∀ (s : State) (i : Instr) (rest : List Byte), s.run = .running →
    s.ip + 3 ≤ s.params.codeCap →
    decode [codeByte s s.ip, codeByte s (s.ip + 1), codeByte s (s.ip + 2)] = .ok (i, rest) →
    step s = exec i s

/-- The code-end check halts and changes nothing else; it is strict, so a word that ends exactly at
the last byte still runs; and no byte at or beyond CODE_CAP is read, so none has an effect (R81). -/
def Obligations.CodeEndHalts : Prop :=
  ∀ s : State, s.run = .running →
    (s.params.codeCap < s.ip + 3 → step s = .next { s with run := .halted }) ∧
    (s.ip + 3 = s.params.codeCap → ∀ i, decodeWord (fetchWord s) = .ok i → step s = exec i s) ∧
    ∀ (t : State) (code' : List Host.Cell),
      (∀ a, a < s.params.codeCap → codeByte { s with code := code' } a = codeByte s a) →
      step s = .next t → step { s with code := code' } = .next { t with code := code' }

/-- The sentinel halts and changes nothing else, as an instruction and as a step (R83). -/
def Obligations.SentinelHalts : Prop :=
  (∀ s : State, exec .sentinel s = .next { s with run := .halted }) ∧
  ∀ s : State, s.run = .running → s.ip + 3 ≤ s.params.codeCap → wordNumber s = 0 →
    step s = .next { s with run := .halted }

/-- A non-zero word with tag 0, 3, 6 or 7 takes `UnknownOpcode` before any handler: the record, and
nothing else changed (40_cycle.md section 2, 60_exceptions.md section 1). That a non-zero word with
tag 0 is `UnknownOpcode` is the spec's own decision D3 (log entry 15). -/
def Obligations.UnknownOpcodeFaults : Prop :=
  ∀ s : State, s.run = .running → s.ip + 3 ≤ s.params.codeCap → wordNumber s ≠ 0 →
    wordNumber s % 8 ∈ [0, 3, 6, 7] →
    step s = .next { s with
      run := .faulted
      fault := some
        { kind := .unknownOpcode, ip := s.ip, tag := BitVec.ofNat 3 (wordNumber s % 8),
          operand := wordNumber s / 8 % 65536, address := none } }

/-- A step is enabled exactly while Running (R80). -/
def Obligations.StepEnabledExactlyWhileRunning : Prop :=
  ∀ s : State, (∃ t, step s = .next t) ↔ s.run = .running

/-- A step from Running ends Running with `ip` advanced by 3, Halted, or Faulted with a record,
and in no other way (the spec's derived definition of a step, 00_scope.md section 5). -/
def Obligations.StepHasThreeOutcomes : Prop :=
  ∀ s : State, s.run = .running → ∃ t, step s = .next t ∧
    ((t.run = .running ∧ t.ip = s.ip + 3 ∧ t.fault = s.fault) ∨
      (t.run = .halted ∧ t = { s with run := .halted }) ∨
      (t.run = .faulted ∧ t.ip = s.ip ∧ ∃ r, t.fault = some r ∧ r.ip = s.ip))

/-- After the sentinel nothing runs: the run is Halted after one step, whatever code memory holds
beyond the sentinel (40_cycle.md section 4), and there is no second step (40_cycle.md section 1). That
a step in `Halted` is answered by the stop `haltedNoStep` is the model's reading (log entry 6). -/
def Obligations.NothingAfterSentinelRuns : Prop :=
  ∀ s : State, s.run = .running → s.ip + 3 ≤ s.params.codeCap → wordNumber s = 0 →
    Host.Core.run Sys2Proof.core 1 s = .next { s with run := .halted } ∧
    ∀ k, Host.Core.run Sys2Proof.core (k + 2) s = .fault .haltedNoStep

/-- `Halted` is entered only at the end of code memory or at the sentinel (40_cycle.md section 4). -/
def Obligations.HaltedOnlyAtEndOrSentinel : Prop :=
  ∀ s t : State, step s = .next t →
    (t.run = .halted ↔ s.params.codeCap < s.ip + 3 ∨ wordNumber s = 0)

/-- A step depends on no code byte but the three at `ip` (20_memory.md section 2, 40_cycle.md section
2): with any other code memory that agrees there, it does the same. -/
def Obligations.StepReadsOnlyItsWord : Prop :=
  ∀ (s t : State) (code' : List Host.Cell),
    (∀ k, k < 3 → codeByte { s with code := code' } (s.ip + k) = codeByte s (s.ip + k)) →
    step s = .next t → step { s with code := code' } = .next { t with code := code' }

/-! ### LoadConst, ReadMem -/

/-- LoadConst (41_stack.md section 2): it pushes its operand, never a negative value, and `ip`
advances; its words, with the corner cases of the rule. That it overflows a full stack of finite
depth (41_stack.md section 1) is the spec's decision D9, and that it does so past the limit too is
the model's reading (log entry 10). -/
def Obligations.LoadConstPushesOperand : Prop :=
  (∀ (n : Nat) (s : State), HasRoom s →
    exec (.loadConst n) s =
      .next { s with stack := s.stack ++ [(n : Int)], ip := s.ip + 3 }) ∧
  (∀ (n d : Nat) (s : State), s.params.stackDepth = some d → d ≤ depth s →
    exec (.loadConst n) s = .next { s with
      run := .faulted
      fault := some
        { kind := .stackOverflow, ip := s.ip, tag := 5, operand := n, address := none } }) ∧
  (∀ w : InstrWord, tagField w = 5 → decodeWord w = .ok (.loadConst (opndField w))) ∧
  (∀ v : Nat, (encodeWord .loadConst v).toNat = 5 + 8 * (v % 512)) ∧
  opcodeOfMnemonic "load_const" = some .loadConst ∧
  encodeOp .loadConst 0 = [0x05, 0x00, 0x00] ∧ encodeOp .loadConst 512 = [0x05, 0x00, 0x00] ∧
  decode [0x05, 0x00, 0x00] = .ok (.loadConst 0, []) ∧
  decode [0x55, 0x01, 0x00] = .ok (.loadConst 42, []) ∧
  decode [0xFD, 0xFF, 0x07] = .ok (.loadConst 65535, []) ∧
  decode [0xFD, 0xFF, 0xFF] = .ok (.loadConst 65535, [])

/-- ReadMem (42_memory_ops.md section 1): inside data memory it pushes the cell its operand names and
`ip` advances; outside it faults with the stack unchanged, which no word can do where DATA_CAP is
65536 or more; its words, with the corner cases of the rule. That it overflows a full stack of finite
depth (41_stack.md section 1) is the spec's decision D9, and that it does so past the limit too is
the model's reading (log entry 10). -/
def Obligations.ReadMemPushesCell : Prop :=
  (∀ (n : Nat) (s : State), n < s.params.dataCap → HasRoom s →
    exec (.readMem n) s =
      .next { s with stack := s.stack ++ [dataCell s n], ip := s.ip + 3 }) ∧
  (∀ (n : Nat) (s : State), s.params.dataCap ≤ n →
    exec (.readMem n) s = .next { s with
      run := .faulted
      fault := some
        { kind := .outOfBoundsRead, ip := s.ip, tag := 4, operand := n,
          address := some (n : Int) } }) ∧
  (∀ (n d : Nat) (s : State), n < s.params.dataCap → s.params.stackDepth = some d →
    d ≤ depth s → exec (.readMem n) s = .next { s with
      run := .faulted
      fault := some
        { kind := .stackOverflow, ip := s.ip, tag := 4, operand := n, address := none } }) ∧
  (∀ w : InstrWord, tagField w = 4 →
    decodeWord w = .ok (.readMem (opndField w)) ∧ opndField w < 65536) ∧
  (∀ v : Nat, (encodeWord .readMem v).toNat = 4 + 8 * (v % 8192)) ∧
  opcodeOfMnemonic "read_mem" = some .readMem ∧
  decode (encodeOp .readMem 99999) = .ok (.readMem 1695, []) ∧
  decode [0x3C, 0x00, 0x00] = .ok (.readMem 7, [])

/-- LessOrEq cannot overflow a stack that is within its finite depth, because it pops before it
pushes (60_exceptions.md section 1, StackOverflow; a finite STACK_DEPTH is the spec's decision D9). -/
def Obligations.LessOrEqNeverOverflows : Prop :=
  ∀ (n : Nat) (s t : State), WithinDepth s → s.fault = none → exec (.lessOrEq n) s = .next t →
    ∀ r, t.fault = some r → r.kind ≠ .stackOverflow

/-- `OutOfBoundsRead`: ReadMem leaves the stack; LessOrEq has popped `right`. LessOrEq's check is the
spec's addition, a flagged deviation from the source (92_eei_decisions.md D4). -/
def Obligations.OutOfBoundsReadFaults : Prop :=
  ∀ (n : Nat) (s : State), s.params.dataCap ≤ n →
    exec (.readMem n) s = .next { s with
      run := .faulted
      fault := some
        { kind := .outOfBoundsRead, ip := s.ip, tag := 4, operand := n, address := some (n : Int) } } ∧
    ∀ (rest : List Int) (right : Int), s.stack = rest ++ [right] →
      exec (.lessOrEq n) s = .next { s with
        run := .faulted
        stack := rest
        fault := some
          { kind := .outOfBoundsRead, ip := s.ip, tag := 1, operand := n,
            address := some (n : Int) } }

/-- What LoadConst and ReadMem leave: the memories, the parameters and every entry already on the
stack; and run state, fault and `ip` unless they raise. -/
def Obligations.PushingInstructionsFrame : Prop :=
  ∀ (n : Nat) (i : Instr) (s t : State), i = .loadConst n ∨ i = .readMem n →
    exec i s = .next t →
    (∀ a, dataCell t a = dataCell s a) ∧ t.data = s.data ∧ t.code = s.code ∧
    t.params = s.params ∧ t.freeCount = s.freeCount ∧
    (∀ k, k < s.stack.length → t.stack[k]? = s.stack[k]?) ∧
    ((t.run = s.run ∧ t.fault = s.fault ∧ t.ip = s.ip + 3 ∧
        t.stack.length = s.stack.length + 1) ∨
      (t.run = .faulted ∧ t.ip = s.ip ∧ t.stack = s.stack))

/-! ### WriteMem -/

/-- WriteMem stores the second popped entry at the first and changes no other cell
(42_memory_ops.md section 2). -/
def Obligations.WriteMemStores : Prop :=
  ∀ (n : Nat) (s : State) (rest : List Int) (v a : Int), s.stack = rest ++ [v, a] →
    0 ≤ a → a < (s.params.dataCap : Int) →
    ∃ t, exec (.writeMem n) s = .next t ∧
      dataCell t a.toNat = v ∧ (∀ b, b ≠ a.toNat → dataCell t b = dataCell s b) ∧
      t = { s with stack := rest, ip := s.ip + 3, data := t.data }

/-- `OutOfBoundsWrite`: both entries popped, the value discarded, data memory unchanged
(42_memory_ops.md section 2). That a negative address is out of bounds is the spec's decision D5. -/
def Obligations.OutOfBoundsWriteFaults : Prop :=
  ∀ (n : Nat) (s : State) (rest : List Int) (v a : Int), s.stack = rest ++ [v, a] →
    (a < 0 ∨ (s.params.dataCap : Int) ≤ a) →
    exec (.writeMem n) s = .next { s with
      run := .faulted
      stack := rest
      fault := some
        { kind := .outOfBoundsWrite, ip := s.ip, tag := 2, operand := n, address := some a } }

/-- What WriteMem leaves: code memory and the parameters; every cell but the one the popped address
translates to; all of data memory when nothing is popped. -/
def Obligations.WriteMemFrame : Prop :=
  ∀ (n : Nat) (s t : State), exec (.writeMem n) s = .next t →
    t.code = s.code ∧ t.params = s.params ∧
    (∀ a v s1, popTwo .writeMem n s = .ok (a, v, s1) →
      t.stack = s1.stack ∧ t.freeCount = s.freeCount ∧
      (∀ c, translate s1.params a ≠ some c → dataCell t c = dataCell s c) ∧
      (t.run = s.run ∧ t.fault = s.fault ∧ t.ip = s.ip + 3 ∨
        t.run = .faulted ∧ t.ip = s.ip ∧ t.data = s.data)) ∧
    (∀ e, popTwo .writeMem n s = .error e →
      t.run = .faulted ∧ t.ip = s.ip ∧ t.data = s.data ∧ ∀ c, dataCell t c = dataCell s c)

/-- WriteMem's operand has no effect but in a fault record (42_memory_ops.md section 2). That the
free stack after `StackUnderflow` does not depend on it either is the model's choice (log entry 2). -/
def Obligations.WriteMemOperandIgnored : Prop :=
  ∀ (n m : Nat) (s t t' : State), exec (.writeMem n) s = .next t → exec (.writeMem m) s = .next t' →
    t' = { t with fault := t'.fault } ∧
    t'.fault.map (fun r => { r with operand := 0 }) = t.fault.map (fun r => { r with operand := 0 })

/-- A read of a cell returns the value the latest write put there (20_memory.md section 10, the
spec's decision D26). -/
def Obligations.ReadMemSeesWriteMem : Prop :=
  ∀ (n : Nat) (s : State) (rest : List Int) (v : Int) (c : Nat), s.stack = rest ++ [v, (c : Int)] →
    c < s.params.dataCap → WithinDepth s →
    ∃ t, exec (.writeMem n) s = .next t ∧
      exec (.readMem c) t = .next { t with stack := rest ++ [v], ip := s.ip + 6 }

/-! ### LessOrEq -/

/-- LessOrEq pops `right` and pushes whether `data[opnd] <= right`, as signed integers
(43_compare.md section 1). -/
def Obligations.LessOrEqCompares : Prop :=
  ∀ (n : Nat) (s : State) (rest : List Int) (right : Int), s.stack = rest ++ [right] →
    n < s.params.dataCap → WithinDepth s →
    exec (.lessOrEq n) s = .next { s with
      stack := rest ++ [if dataCell s n ≤ right then 1 else 0]
      ip := s.ip + 3 }

/-- What LessOrEq leaves: the memories and the parameters; unless the stack was empty, every entry
below the popped one; and run state, fault and `ip` unless it raises. -/
def Obligations.LessOrEqFrame : Prop :=
  ∀ (n : Nat) (s t : State), exec (.lessOrEq n) s = .next t →
    (∀ a, dataCell t a = dataCell s a) ∧ t.data = s.data ∧ t.code = s.code ∧
    t.params = s.params ∧
    (s.stack ≠ [] → t.freeCount = s.freeCount ∧
      ∀ k, k + 1 < s.stack.length → t.stack[k]? = s.stack[k]?) ∧
    ((t.run = s.run ∧ t.fault = s.fault ∧ t.ip = s.ip + 3 ∧ t.stack.length = s.stack.length) ∨
      (t.run = .faulted ∧ t.ip = s.ip))

/-! ### Faults -/

/-- `StackUnderflow`: WriteMem with fewer than 2 entries, LessOrEq with none (60_exceptions.md section
1). Nothing is said of the stack afterwards: it is unspecified (the spec's decision D6), and in the
model a free value (log entry 2). -/
def Obligations.StackUnderflowFaults : Prop :=
  ∀ (n : Nat) (s : State),
    (depth s < 2 → ∃ t, exec (.writeMem n) s = .next t ∧
      t = { s with
        run := .faulted
        stack := t.stack
        freeCount := t.freeCount
        fault := some
          { kind := .stackUnderflow, ip := s.ip, tag := 2, operand := n, address := none } }) ∧
    (depth s < 1 → ∃ t, exec (.lessOrEq n) s = .next t ∧
      t = { s with
        run := .faulted
        stack := t.stack
        freeCount := t.freeCount
        fault := some
          { kind := .stackUnderflow, ip := s.ip, tag := 1, operand := n, address := none } })

/-- Every fault is precise: `ip` and both memories are as they were, and the record holds the
faulting word's address, its decoded fields, and an address for the out-of-bounds kinds alone
(60_exceptions.md section 2; the record's layout is the spec's decision D7). -/
def Obligations.FaultRecordDescribesWord : Prop :=
  ∀ s t : State, step s = .next t → t.run = .faulted →
    t.ip = s.ip ∧ t.data = s.data ∧ t.code = s.code ∧
    ∃ r, t.fault = some r ∧ r.ip = s.ip ∧ r.tag.toNat = wordNumber s % 8 ∧
      r.operand = wordNumber s / 8 % 65536 ∧ (r.address ≠ none ↔ OutOfBounds r.kind)

/-- Which words raise which kind (the "raised by" column of 60_exceptions.md section 1; LessOrEq's
`OutOfBoundsRead` is the spec's decision D4). -/
def Obligations.FaultKindsByTag : Prop :=
  ∀ s t : State, WithinDepth s → step s = .next t → t.run = .faulted →
    ∃ r, t.fault = some r ∧
      match r.kind with
      | .unknownOpcode => wordNumber s % 8 ∈ [0, 3, 6, 7]
      | .stackUnderflow => wordNumber s % 8 = 2 ∧ depth s < 2 ∨ wordNumber s % 8 = 1 ∧ depth s < 1
      | .outOfBoundsRead => wordNumber s % 8 = 4 ∨ wordNumber s % 8 = 1
      | .outOfBoundsWrite => wordNumber s % 8 = 2
      | .stackOverflow => wordNumber s % 8 = 5 ∨ wordNumber s % 8 = 4

/-- With at least 65536 data cells no step raises `OutOfBoundsRead` (the corner cases of 42_memory_ops.md
section 1 and, as the spec derives, of 43_compare.md section 1). -/
def Obligations.NoReadFaultWithFullDataMemory : Prop :=
  ∀ s t : State, 65536 ≤ s.params.dataCap → s.fault = none → step s = .next t →
    ∀ r, t.fault = some r → r.kind ≠ .outOfBoundsRead

/-- No step of a run overflows an unbounded stack, or one of at least `floor(CODE_CAP / 3)` entries
(41_stack.md section 1, which the spec derives from the depth bound). -/
def Obligations.OverflowUnreachable : Prop :=
  ∀ s t : State, Inv s → (∀ d, s.params.stackDepth = some d → s.params.codeCap / 3 ≤ d) →
    step s = .next t → ∀ r, t.fault = some r → r.kind ≠ .stackOverflow

/-- The numeric fault codes and the status output in every state: 0 for no fault, else the code of
the record's kind (60_exceptions.md section 1, the spec's decision D7). -/
def Obligations.FaultCodes : Prop :=
  (∀ s, s.fault = none → faultCode s = 0) ∧
    [FaultKind.unknownOpcode, .stackUnderflow, .outOfBoundsRead, .outOfBoundsWrite,
      .stackOverflow].map FaultKind.code = [1, 2, 3, 4, 5] ∧
    ∀ s r, s.fault = some r → faultCode s = r.kind.code

/-! ### The whole machine -/

/-- No instruction and no step writes code memory, and the only data write is WriteMem's, which leaves
code memory alone (20_memory.md section 1). That the parameters are a field of State, which no
instruction and no step changes, is the model's choice (log entry 3). -/
def Obligations.CodeMemoryReadOnly : Prop :=
  (∀ i s t, exec i s = .next t → t.code = s.code ∧ t.params = s.params) ∧
    (∀ s t, step s = .next t → t.code = s.code ∧ t.params = s.params) ∧
    ∀ i s t, (∀ n, i ≠ .writeMem n) → exec i s = .next t → t.data = s.data

/-- Only a WriteMem word's completed step writes data memory (10_state.md section 7). -/
def Obligations.OnlyWriteMemWritesData : Prop :=
  ∀ s t : State, step s = .next t → t.data ≠ s.data → wordNumber s % 8 = 2 ∧ t.run = .running

/-- Each completed instruction changes the depth by its fixed amount (10_state.md section 5, which the
spec derives). -/
def Obligations.DepthChangesByFixedAmount : Prop :=
  ∀ s t : State, step s = .next t → t.run = .running →
    (wordNumber s % 8 = 5 ∨ wordNumber s % 8 = 4 → depth t = depth s + 1) ∧
    (wordNumber s % 8 = 2 → depth t + 2 = depth s) ∧
    (wordNumber s % 8 = 1 → depth t = depth s)

/-- The memories' canonical form is kept by every instruction, whatever its operand. The form is the
model's own (log entry 5). -/
def Obligations.ExecKeepsMemoryCanonical : Prop :=
  ∀ (i : Instr) (s t : State), Memory.wf s → exec i s = .next t → Memory.wf t

/-- Every step keeps the invariant of a run: `ip` aligned and inside code memory (10_state.md section
3), the memories canonical (log entry 5), a fault record exactly in `Faulted` (10_state.md section 6),
its fields as 60_exceptions.md section 2 says, the depth bounded by the words executed (10_state.md
section 5) and by a finite STACK_DEPTH (41_stack.md section 1). -/
def Obligations.StepKeepsInv : Prop :=
  ∀ s t : State, Inv s → step s = .next t → Inv t

/-- The invariant holds at reset. -/
def Obligations.ResetHasInv : Prop := Inv State.reset

/-- The invariant holds wherever a launch starts a run (70_reset_and_hazards.md sections 1 and 2). -/
def Obligations.LaunchHasInv : Prop :=
  ∀ (p : Params) (program : List Byte) (presets : List (Nat × Int)) (s : State),
    launch p program presets = .ok s → Inv s

/-- No instruction computes a value that needs more than 17 signed bits: every value keeps fitting
any wider cell (92_eei_decisions.md D10). -/
def Obligations.StepKeepsValuesFit : Prop :=
  ∀ (bits : Nat) (s t : State), 17 ≤ bits → Inv s → ValuesFit bits s → step s = .next t →
    ValuesFit bits t

/-- From every Running state the run ends within the bound the spec derives (40_cycle.md section 4):
one step for each whole word left, and one that halts or faults. -/
def Obligations.RunEndsWithinBound : Prop :=
  ∀ s : State, s.run = .running →
    ∃ k t, k ≤ (s.params.codeCap - s.ip) / 3 + 1 ∧
      Host.Core.run Sys2Proof.core k s = .next t ∧ Ended t

/-- The run is straight-line: after `k` steps a run still Running is `k` words further (40_cycle.md
section 4). -/
def Obligations.RunIsStraightLine : Prop :=
  ∀ (k : Nat) (s t : State), Host.Core.run Sys2Proof.core k s = .next t → t.run = .running →
    t.ip = s.ip + 3 * k

/-! ### Reset, loading, reading back -/

/-- The reset state: the values of 10_state.md section 9 for an empty program; the parameters are the
spec's defaults, written out (00_scope.md section 4, log entry 3); every data cell holds the model's
free value for DATA_INIT (log entry 1). -/
def Obligations.ResetValues : Prop :=
  State.reset.run = .running ∧ State.reset.ip = 0 ∧ State.reset.stack = [] ∧
    State.reset.fault = none ∧ State.reset.params.codeCap = 65536 ∧
    State.reset.params.dataCap = 65536 ∧ State.reset.params.stackDepth = none ∧
    (∀ a, codeByte State.reset a = 0) ∧
    ∀ a, dataCell State.reset a = Config.dataInit 0 a

/-- Loading and the state after it (70_reset_and_hazards.md sections 1 and 2): too long a program is
refused (the spec's decision D11); otherwise code memory is the program, then zero bytes, and every
other component has its reset value. A cell holds its last preset, or DATA_INIT's fill (log entries
1 and 8). -/
def Obligations.LaunchLoadsProgram : Prop :=
  ∀ (p : Params) (program : List Byte) (presets : List (Nat × Int)),
    (p.codeCap < program.length → launch p program presets = .error .programTooLong) ∧
    (program.length ≤ p.codeCap → (∀ e ∈ presets, e.1 < p.dataCap) →
      ∃ s, launch p program presets = .ok s ∧ s.params = p ∧ s.run = .running ∧ s.ip = 0 ∧
        s.stack = [] ∧ s.fault = none ∧
        (∀ a, codeByte s a = program.getD a 0) ∧
        (∀ a, (∀ e ∈ presets, e.1 ≠ a) → dataCell s a = initialData p a) ∧
        (∀ before after a v, presets = before ++ (a, v) :: after → (∀ e ∈ after, e.1 ≠ a) →
          dataCell s a = v))

/-- The launch with the default parameters, no program and no preset is the reset state. The spec's
reset includes loading a program (70_reset_and_hazards.md section 1); that `State.reset` is the launch
of an empty program is the model's reading (log entry 9), and that it has the default parameters is
the model's choice (log entry 3). -/
def Obligations.EmptyLaunchIsReset : Prop :=
  launch Params.standard [] [] = .ok State.reset

/-- The host reads nothing while Running, no status and no data cell; after the run it reads the run
state, the record, `ip`, the stack, which is withheld after `StackUnderflow` alone, and every cell of
data memory (70_reset_and_hazards.md sections 3 and 4, the spec's decisions D2 and D19). -/
def Obligations.ReadBackAfterEnd : Prop :=
  ∀ s : State,
    (readBack s = none ↔ s.run = .running) ∧
    (s.run = .running → ∀ a, readBackCell s a = none) ∧
    (Ended s → ∀ a,
      readBackCell s a = if a < s.params.dataCap then some (dataCell s a) else none) ∧
    ∀ b, readBack s = some b → b.run = s.run ∧ b.fault = s.fault ∧ b.ip = s.ip ∧
      (StackStated s → b.stack = some s.stack) ∧ (¬ StackStated s → b.stack = none)

/-- Memory export (70_reset_and_hazards.md section 4): after the run `InvalidRange` when the range is
inverted, else one record for each address of the range inside data memory, ascending (the order of
the checks and the clamping are the spec's decision D23). While Running the host has no move
(70_reset_and_hazards.md section 3, the spec's decision D19): every export is refused, by the model's
own name and before its range is looked at (log entry 18). -/
def Obligations.ExportYieldsRange : Prop :=
  ∀ (s : State) (start last : Nat),
    (s.run = .running → exportRange s start last = .error .stillRunning) ∧
    (Ended s → last < start → exportRange s start last = .error .invalidRange) ∧
    (Ended s → start ≤ last → ∃ records, exportRange s start last = .ok records ∧
      ∀ k, records[k]? =
        if start + k ≤ last ∧ start + k < s.params.dataCap then
          some (start + k, dataCell s (start + k)) else none)
end

