-- ==== Sys2Proof/Laws/Decode.lean ====
section
/-! SUPPORT. The decoder's and the encoder's words as numbers. -/

namespace Sys2Proof

/-- Putting a word's bytes together again gives the word. -/
theorem le3_wordBytes (w : InstrWord) :
    le3 (w.extractLsb' 0 8) (w.extractLsb' 8 8) (w.extractLsb' 16 8) = w := by
  unfold le3
  ext i hi
  simp only [BitVec.getElem_or, BitVec.getElem_shiftLeft, BitVec.getElem_setWidth,
    BitVec.getLsbD_extractLsb']
  interval_cases i <;> simp

/-- The value of a little-endian word (R10). -/
theorem le3_toNat (b0 b1 b2 : Byte) :
    (le3 b0 b1 b2).toNat = b0.toNat + 2 ^ 8 * b1.toNat + 2 ^ 16 * b2.toNat := by
  have h0 := b0.isLt
  have h1 := b1.isLt
  have h2 := b2.isLt
  have low : b0.toNat ||| b1.toNat <<< 8 = b0.toNat + 2 ^ 8 * b1.toNat := by
    rw [Nat.or_comm, ← Nat.shiftLeft_add_eq_or_of_lt h0, Nat.shiftLeft_eq]
    omega
  unfold le3
  rw [BitVec.toNat_or, BitVec.toNat_or, BitVec.toNat_shiftLeft, BitVec.toNat_shiftLeft,
    BitVec.toNat_setWidth, BitVec.toNat_setWidth, BitVec.toNat_setWidth,
    Nat.mod_eq_of_lt (a := b0.toNat) (by omega), Nat.mod_eq_of_lt (a := b1.toNat) (by omega),
    Nat.mod_eq_of_lt (a := b2.toNat) (by omega),
    Nat.mod_eq_of_lt (a := b1.toNat <<< 8) (by rw [Nat.shiftLeft_eq]; omega),
    Nat.mod_eq_of_lt (a := b2.toNat <<< 16) (by rw [Nat.shiftLeft_eq]; omega),
    low, Nat.or_comm, ← Nat.shiftLeft_add_eq_or_of_lt (by omega), Nat.shiftLeft_eq]
  omega

/-- Decoding a word's bytes is decoding the word. -/
theorem decode_wordBytes (w : InstrWord) (rest : List Byte) :
    decode (wordBytes w ++ rest) =
      match decodeWord w with
      | .ok i => .ok (i, rest)
      | .error u => .error (.unknownOpcode u) := by
  have e := le3_wordBytes w
  cases hd : decodeWord w <;>
    simp only [wordBytes, List.cons_append, List.nil_append, decode, e, hd]

/-- The tag field as a number (R62). -/
theorem tagField_toNat (w : InstrWord) : (tagField w).toNat = w.toNat % 8 := by
  simp [tagField, BitVec.extractLsb'_toNat]

/-- The operand field as a number (R62). -/
theorem opndField_eq (w : InstrWord) : opndField w = w.toNat / 8 % 65536 := by
  simp [opndField, BitVec.extractLsb'_toNat, Nat.shiftRight_eq_div_pow]

theorem opndField_lt (w : InstrWord) : opndField w < 65536 := by
  rw [opndField_eq]
  omega

/-- A packed word as a number (R63, R66): the tag, and the value from bit 3 up. -/
theorem packWord_toNat (t : Tag) {v : Nat} (h : v < 2 ^ 21) :
    (packWord t v).toNat = t.toNat + 8 * v := by
  have ht := t.isLt
  unfold packWord
  rw [BitVec.toNat_or, BitVec.toNat_shiftLeft, BitVec.toNat_setWidth, BitVec.toNat_ofNat,
    Nat.mod_eq_of_lt (a := v) (by omega), Nat.mod_eq_of_lt (a := t.toNat) (by omega),
    Nat.shiftLeft_eq, Nat.mod_eq_of_lt (by omega), Nat.or_comm, ← Nat.shiftLeft_eq,
    ← Nat.shiftLeft_add_eq_or_of_lt (by omega), Nat.shiftLeft_eq]
  omega

theorem tagField_packWord (t : Tag) {v : Nat} (h : v < 65536) : tagField (packWord t v) = t := by
  have ht := t.isLt
  apply BitVec.eq_of_toNat_eq
  rw [tagField_toNat, packWord_toNat t (by omega)]
  omega

theorem opndField_packWord (t : Tag) {v : Nat} (h : v < 65536) : opndField (packWord t v) = v := by
  have ht := t.isLt
  rw [opndField_eq, packWord_toNat t (by omega)]
  omega

/-- Masking keeps the low bits (R66). -/
theorem and_mask (v n : Nat) : v &&& mask n = v % 2 ^ n := by
  rw [mask, Nat.one_shiftLeft, Nat.and_two_pow_sub_one_eq_mod]

theorem width_le (op : Opcode) : op.width ≤ 14 := by cases op <;> decide

theorem masked_lt (op : Opcode) (v : Nat) : v &&& mask op.width < 16384 := by
  rw [and_mask]
  exact Nat.lt_of_lt_of_le (Nat.mod_lt _ (Nat.two_pow_pos _))
    (Nat.pow_le_pow_right (by decide) (width_le op))

theorem opcodeOfTag_tag (op : Opcode) : opcodeOfTag op.tag = some op := by cases op <;> rfl

theorem tag_ne_zero (op : Opcode) : op.tag ≠ 0 := by cases op <;> decide

/-- A tag is an opcode's exactly where the decoder says so (R64). -/
theorem opcodeOfTag_eq_some {t : Tag} {op : Opcode} : opcodeOfTag t = some op ↔ t = op.tag := by
  constructor
  · intro h
    revert h
    revert t
    cases op <;> decide
  · rintro rfl
    exact opcodeOfTag_tag op

theorem opcodeOfTag_eq_none {t : Tag} : opcodeOfTag t = none ↔ t ∉ [1, 2, 4, 5] := by
  revert t
  decide

/-- Everything the decoder can answer on a word (R70). -/
theorem decodeWord_cases (w : InstrWord) :
    (w = 0 ∧ decodeWord w = .ok .sentinel) ∨
      (w ≠ 0 ∧ ∃ op : Opcode, tagField w = op.tag ∧ decodeWord w = .ok (op.instr (opndField w))) ∨
      (w ≠ 0 ∧ tagField w ∉ [1, 2, 4, 5] ∧
        decodeWord w = .error { tag := tagField w, opnd := opndField w }) := by
  by_cases h0 : w = 0
  · exact .inl ⟨h0, by simp [decodeWord, h0]⟩
  · cases h : opcodeOfTag (tagField w) with
    | some op =>
      exact .inr (.inl ⟨h0, op, opcodeOfTag_eq_some.mp h, by rw [decodeWord, if_neg h0, h]⟩)
    | none =>
      exact .inr (.inr ⟨h0, opcodeOfTag_eq_none.mp h, by rw [decodeWord, if_neg h0, h]⟩)

/-- A word with an opcode's tag decodes to that opcode with the whole operand field (R69). -/
theorem decodeWord_of_tag {w : InstrWord} {op : Opcode} (h : tagField w = op.tag) :
    decodeWord w = .ok (op.instr (opndField w)) := by
  have h0 : w ≠ 0 := by
    rintro rfl
    exact tag_ne_zero op (by rw [← h]; rfl)
  rw [decodeWord, if_neg h0, h, opcodeOfTag_tag]

end Sys2Proof
end

