-- ==== Sys2Proof/Laws/State.lean ====
section
/-! SUPPORT. One lemma per field per named update of the state, and what an update leaves of the
reads. -/

namespace Sys2Proof.Machine

variable (s : State)

@[simp] theorem halt_params : (halt s).params = s.params := rfl
@[simp] theorem halt_run : (halt s).run = RunState.halted := rfl
@[simp] theorem halt_ip : (halt s).ip = s.ip := rfl
@[simp] theorem halt_stack : (halt s).stack = s.stack := rfl
@[simp] theorem halt_code : (halt s).code = s.code := rfl
@[simp] theorem halt_data : (halt s).data = s.data := rfl
@[simp] theorem halt_fault : (halt s).fault = s.fault := rfl
@[simp] theorem halt_freeCount : (halt s).freeCount = s.freeCount := rfl

@[simp] theorem advance_params : (advance s).params = s.params := rfl
@[simp] theorem advance_run : (advance s).run = s.run := rfl
@[simp] theorem advance_ip : (advance s).ip = s.ip + 3 := rfl
@[simp] theorem advance_stack : (advance s).stack = s.stack := rfl
@[simp] theorem advance_code : (advance s).code = s.code := rfl
@[simp] theorem advance_data : (advance s).data = s.data := rfl
@[simp] theorem advance_fault : (advance s).fault = s.fault := rfl
@[simp] theorem advance_freeCount : (advance s).freeCount = s.freeCount := rfl

@[simp] theorem setStack_params (st : List Int) : (setStack st s).params = s.params := rfl
@[simp] theorem setStack_run (st : List Int) : (setStack st s).run = s.run := rfl
@[simp] theorem setStack_ip (st : List Int) : (setStack st s).ip = s.ip := rfl
@[simp] theorem setStack_stack (st : List Int) : (setStack st s).stack = st := rfl
@[simp] theorem setStack_code (st : List Int) : (setStack st s).code = s.code := rfl
@[simp] theorem setStack_data (st : List Int) : (setStack st s).data = s.data := rfl
@[simp] theorem setStack_fault (st : List Int) : (setStack st s).fault = s.fault := rfl
@[simp] theorem setStack_freeCount (st : List Int) : (setStack st s).freeCount = s.freeCount := rfl

@[simp] theorem setDataCell_params (a : Nat) (v : Int) : (setDataCell a v s).params = s.params := rfl
@[simp] theorem setDataCell_run (a : Nat) (v : Int) : (setDataCell a v s).run = s.run := rfl
@[simp] theorem setDataCell_ip (a : Nat) (v : Int) : (setDataCell a v s).ip = s.ip := rfl
@[simp] theorem setDataCell_stack (a : Nat) (v : Int) : (setDataCell a v s).stack = s.stack := rfl
@[simp] theorem setDataCell_code (a : Nat) (v : Int) : (setDataCell a v s).code = s.code := rfl
@[simp] theorem setDataCell_data (a : Nat) (v : Int) : (setDataCell a v s).data = cellWrite (initialData s.params) s.data a v := rfl
@[simp] theorem setDataCell_fault (a : Nat) (v : Int) : (setDataCell a v s).fault = s.fault := rfl
@[simp] theorem setDataCell_freeCount (a : Nat) (v : Int) : (setDataCell a v s).freeCount = s.freeCount := rfl

@[simp] theorem raise_params (k : FaultKind) (t : Tag) (n : Nat) (a : Option Int) : (raise k t n a s).params = s.params := rfl
@[simp] theorem raise_run (k : FaultKind) (t : Tag) (n : Nat) (a : Option Int) : (raise k t n a s).run = RunState.faulted := rfl
@[simp] theorem raise_ip (k : FaultKind) (t : Tag) (n : Nat) (a : Option Int) : (raise k t n a s).ip = s.ip := rfl
@[simp] theorem raise_stack (k : FaultKind) (t : Tag) (n : Nat) (a : Option Int) : (raise k t n a s).stack = s.stack := rfl
@[simp] theorem raise_code (k : FaultKind) (t : Tag) (n : Nat) (a : Option Int) : (raise k t n a s).code = s.code := rfl
@[simp] theorem raise_data (k : FaultKind) (t : Tag) (n : Nat) (a : Option Int) : (raise k t n a s).data = s.data := rfl
@[simp] theorem raise_fault (k : FaultKind) (t : Tag) (n : Nat) (a : Option Int) : (raise k t n a s).fault = some { kind := k, ip := s.ip, tag := t, operand := n, address := a } := rfl
@[simp] theorem raise_freeCount (k : FaultKind) (t : Tag) (n : Nat) (a : Option Int) : (raise k t n a s).freeCount = s.freeCount := rfl

@[simp] theorem raiseUnderflow_params (t : Tag) (n : Nat) : (raiseUnderflow t n s).params = s.params := rfl
@[simp] theorem raiseUnderflow_run (t : Tag) (n : Nat) : (raiseUnderflow t n s).run = RunState.faulted := rfl
@[simp] theorem raiseUnderflow_ip (t : Tag) (n : Nat) : (raiseUnderflow t n s).ip = s.ip := rfl
@[simp] theorem raiseUnderflow_stack (t : Tag) (n : Nat) : (raiseUnderflow t n s).stack = Config.underflowStack s.freeCount t s.stack := rfl
@[simp] theorem raiseUnderflow_code (t : Tag) (n : Nat) : (raiseUnderflow t n s).code = s.code := rfl
@[simp] theorem raiseUnderflow_data (t : Tag) (n : Nat) : (raiseUnderflow t n s).data = s.data := rfl
@[simp] theorem raiseUnderflow_fault (t : Tag) (n : Nat) : (raiseUnderflow t n s).fault = some { kind := .stackUnderflow, ip := s.ip, tag := t, operand := n, address := none } := rfl
@[simp] theorem raiseUnderflow_freeCount (t : Tag) (n : Nat) : (raiseUnderflow t n s).freeCount = s.freeCount + 1 := rfl

@[simp] theorem raiseUnknownOpcode_params (u : UnknownOpcode) : (raiseUnknownOpcode u s).params = s.params := rfl
@[simp] theorem raiseUnknownOpcode_run (u : UnknownOpcode) : (raiseUnknownOpcode u s).run = RunState.faulted := rfl
@[simp] theorem raiseUnknownOpcode_ip (u : UnknownOpcode) : (raiseUnknownOpcode u s).ip = s.ip := rfl
@[simp] theorem raiseUnknownOpcode_stack (u : UnknownOpcode) : (raiseUnknownOpcode u s).stack = s.stack := rfl
@[simp] theorem raiseUnknownOpcode_code (u : UnknownOpcode) : (raiseUnknownOpcode u s).code = s.code := rfl
@[simp] theorem raiseUnknownOpcode_data (u : UnknownOpcode) : (raiseUnknownOpcode u s).data = s.data := rfl
@[simp] theorem raiseUnknownOpcode_fault (u : UnknownOpcode) : (raiseUnknownOpcode u s).fault = some { kind := .unknownOpcode, ip := s.ip, tag := u.tag, operand := u.opnd, address := none } := rfl
@[simp] theorem raiseUnknownOpcode_freeCount (u : UnknownOpcode) : (raiseUnknownOpcode u s).freeCount = s.freeCount := rfl

@[simp] theorem codeByte_halt (x : Nat) : codeByte (halt s) x = codeByte s x := rfl
@[simp] theorem dataCell_halt (x : Nat) : dataCell (halt s) x = dataCell s x := rfl
@[simp] theorem codeByte_advance (x : Nat) : codeByte (advance s) x = codeByte s x := rfl
@[simp] theorem dataCell_advance (x : Nat) : dataCell (advance s) x = dataCell s x := rfl
@[simp] theorem codeByte_setStack (st : List Int) (x : Nat) : codeByte (setStack st s) x = codeByte s x := rfl
@[simp] theorem dataCell_setStack (st : List Int) (x : Nat) : dataCell (setStack st s) x = dataCell s x := rfl
@[simp] theorem codeByte_setDataCell (a : Nat) (v : Int) (x : Nat) : codeByte (setDataCell a v s) x = codeByte s x := rfl
@[simp] theorem codeByte_raise (k : FaultKind) (t : Tag) (n : Nat) (a : Option Int) (x : Nat) : codeByte (raise k t n a s) x = codeByte s x := rfl
@[simp] theorem dataCell_raise (k : FaultKind) (t : Tag) (n : Nat) (a : Option Int) (x : Nat) : dataCell (raise k t n a s) x = dataCell s x := rfl
@[simp] theorem codeByte_raiseUnderflow (t : Tag) (n : Nat) (x : Nat) : codeByte (raiseUnderflow t n s) x = codeByte s x := rfl
@[simp] theorem dataCell_raiseUnderflow (t : Tag) (n : Nat) (x : Nat) : dataCell (raiseUnderflow t n s) x = dataCell s x := rfl
@[simp] theorem codeByte_raiseUnknownOpcode (u : UnknownOpcode) (x : Nat) : codeByte (raiseUnknownOpcode u s) x = codeByte s x := rfl
@[simp] theorem dataCell_raiseUnknownOpcode (u : UnknownOpcode) (x : Nat) : dataCell (raiseUnknownOpcode u s) x = dataCell s x := rfl

@[simp] theorem setCodeByte_params (a : Nat) (b : Byte) : (setCodeByte a b s).params = s.params := rfl
@[simp] theorem setCodeByte_run (a : Nat) (b : Byte) : (setCodeByte a b s).run = s.run := rfl
@[simp] theorem setCodeByte_ip (a : Nat) (b : Byte) : (setCodeByte a b s).ip = s.ip := rfl
@[simp] theorem setCodeByte_stack (a : Nat) (b : Byte) : (setCodeByte a b s).stack = s.stack := rfl
@[simp] theorem setCodeByte_data (a : Nat) (b : Byte) : (setCodeByte a b s).data = s.data := rfl
@[simp] theorem setCodeByte_fault (a : Nat) (b : Byte) : (setCodeByte a b s).fault = s.fault := rfl
@[simp] theorem setCodeByte_freeCount (a : Nat) (b : Byte) :
    (setCodeByte a b s).freeCount = s.freeCount := rfl

@[simp] theorem setStack_setStack (st st' : List Int) :
    setStack st' (setStack st s) = setStack st' s := rfl

end Sys2Proof.Machine
end

