-- ==== Sys2Proof/Laws/Memory.lean ====
section
/-! SUPPORT. The laws of the sparse memories: read after write, writes elsewhere, and the canonical
form kept by every memory operation. -/

namespace Sys2Proof.Machine

variable {α : Type}

/-! ### Reads -/

theorem cellRead_erase_same (init : Nat → α) (a : Nat) (m : List (Nat × α)) :
    cellRead init (cellErase a m) a = init a := by
  induction m with
  | nil => rfl
  | cons e m ih =>
    by_cases h : e.1 = a
    · simpa [cellErase, h] using ih
    · have h' : ¬ a = e.1 := fun x => h x.symm
      simpa [cellErase, h, cellRead, h'] using ih

theorem cellRead_erase_ne (init : Nat → α) {a b : Nat} (hb : b ≠ a) (m : List (Nat × α)) :
    cellRead init (cellErase a m) b = cellRead init m b := by
  induction m with
  | nil => rfl
  | cons e m ih =>
    by_cases h : e.1 = a
    · have h' : ¬ b = e.1 := fun x => hb (x.trans h)
      simpa [cellErase, h, cellRead, hb] using ih
    · by_cases hbe : b = e.1
      · simp [cellErase, h, cellRead, hbe]
      · simpa [cellErase, h, cellRead, hbe] using ih

/-- Where nothing is listed at the address yet, a read after an insertion gives the value inserted. -/
theorem cellRead_insert_same (init : Nat → α) (a : Nat) (v : α) (m : List (Nat × α))
    (h : ∀ e ∈ m, e.1 ≠ a) : cellRead init (cellInsert a v m) a = v := by
  induction m with
  | nil => simp [cellInsert, cellRead]
  | cons e m ih =>
    have he : ¬ a = e.1 := fun x => h e (by simp) x.symm
    have hm := ih fun x hx => h x (by simp [hx])
    by_cases hlt : a < e.1
    · simp [cellInsert, hlt, cellRead]
    · simp [cellInsert, hlt, cellRead, he, hm]

theorem cellRead_insert_ne (init : Nat → α) {a b : Nat} (hb : b ≠ a) (v : α) (m : List (Nat × α)) :
    cellRead init (cellInsert a v m) b = cellRead init m b := by
  induction m with
  | nil => simp [cellInsert, cellRead, hb]
  | cons e m ih =>
    by_cases hlt : a < e.1
    · simp [cellInsert, hlt, cellRead, hb]
    · simp [cellInsert, hlt, cellRead, ih]

theorem mem_cellErase {a : Nat} {m : List (Nat × α)} {e : Nat × α} :
    e ∈ cellErase a m ↔ e ∈ m ∧ e.1 ≠ a := by
  simp [cellErase]

theorem mem_cellInsert {a : Nat} {v : α} {m : List (Nat × α)} {e : Nat × α} :
    e ∈ cellInsert a v m ↔ e = (a, v) ∨ e ∈ m := by
  induction m with
  | nil => simp [cellInsert]
  | cons x m ih =>
    by_cases h : a < x.1
    · simp [cellInsert, h]
    · simp only [cellInsert, h, if_false, List.mem_cons, ih]
      tauto

/-- A read after a write to the same address gives the value written, in every memory. -/
theorem cellRead_write_same [DecidableEq α] (init : Nat → α) (m : List (Nat × α)) (a : Nat) (v : α) :
    cellRead init (cellWrite init m a v) a = v := by
  unfold cellWrite
  split
  · next h => rw [cellRead_erase_same, h]
  · exact cellRead_insert_same init a v _ fun e he => (mem_cellErase.mp he).2

/-- A write leaves every other address alone, in every memory. -/
theorem cellRead_write_ne [DecidableEq α] (init : Nat → α) (m : List (Nat × α)) {a b : Nat}
    (hb : b ≠ a) (v : α) : cellRead init (cellWrite init m a v) b = cellRead init m b := by
  unfold cellWrite
  split
  · exact cellRead_erase_ne init hb m
  · rw [cellRead_insert_ne init hb, cellRead_erase_ne init hb]

/-! ### The canonical form -/

theorem cellInsert_pairwise {a : Nat} {v : α} {m : List (Nat × α)}
    (hp : m.Pairwise fun x y => x.1 < y.1) (hne : ∀ e ∈ m, e.1 ≠ a) :
    (cellInsert a v m).Pairwise fun x y => x.1 < y.1 := by
  induction m with
  | nil => simp [cellInsert]
  | cons e m ih =>
    obtain ⟨he, hm⟩ := List.pairwise_cons.mp hp
    by_cases h : a < e.1
    · simp only [cellInsert, h, if_true]
      refine List.pairwise_cons.mpr ⟨fun y hy => ?_, hp⟩
      rcases List.mem_cons.mp hy with rfl | hy
      · exact h
      · exact Nat.lt_trans h (he y hy)
    · simp only [cellInsert, h, if_false]
      refine List.pairwise_cons.mpr ⟨fun y hy => ?_, ih hm fun x hx => hne x (by simp [hx])⟩
      rcases mem_cellInsert.mp hy with rfl | hy
      · have := hne e (by simp)
        show e.1 < a
        omega
      · exact he y hy

/-- A write inside the capacity keeps the canonical form. -/
theorem cellWrite_wf [DecidableEq α] {init : Nat → α} {cap : Nat} {m : List (Nat × α)} {a : Nat}
    (v : α) (hm : cellsWf init cap m) (ha : a < cap) : cellsWf init cap (cellWrite init m a v) := by
  obtain ⟨hp, hv⟩ := hm
  have hpe : (cellErase a m).Pairwise fun x y => x.1 < y.1 := List.Pairwise.filter _ hp
  have hve : ∀ e ∈ cellErase a m, e.1 < cap ∧ e.2 ≠ init e.1 :=
    fun e he => hv e (mem_cellErase.mp he).1
  unfold cellWrite
  split
  · exact ⟨hpe, hve⟩
  · next h =>
    refine ⟨cellInsert_pairwise hpe fun e he => (mem_cellErase.mp he).2, fun e he => ?_⟩
    rcases mem_cellInsert.mp he with rfl | he
    · exact ⟨ha, h⟩
    · exact hve e he

/-- Equal memories are equal data: two canonical memories that read alike are the same list. -/
theorem cells_ext {init : Nat → α} {cap : Nat} {m n : List (Nat × α)} (hm : cellsWf init cap m)
    (hn : cellsWf init cap n) (h : ∀ a, cellRead init m a = cellRead init n a) : m = n := by
  have below : ∀ (l : List (Nat × α)) (a : Nat), (∀ e ∈ l, a < e.1) → cellRead init l a = init a := by
    intro l a hl
    induction l with
    | nil => rfl
    | cons e l ih =>
      have he := hl e (by simp)
      have : ¬ a = e.1 := by omega
      simpa [cellRead, this] using ih fun x hx => hl x (by simp [hx])
  induction m generalizing n with
  | nil =>
    cases n with
    | nil => rfl
    | cons e n =>
      have := h e.1
      simp only [cellRead, if_true] at this
      exact absurd this.symm (hn.2 e (by simp)).2
  | cons e m ih =>
    obtain ⟨hme, hmp⟩ := List.pairwise_cons.mp hm.1
    cases n with
    | nil =>
      have := h e.1
      simp only [cellRead, if_true] at this
      exact absurd this (hm.2 e (by simp)).2
    | cons f n =>
      obtain ⟨hnf, hnp⟩ := List.pairwise_cons.mp hn.1
      have hkey : e.1 = f.1 := by
        rcases Nat.lt_trichotomy e.1 f.1 with hlt | heq | hlt
        · have h1 := h e.1
          rw [below (f :: n) e.1 (fun x hx => by
            rcases List.mem_cons.mp hx with rfl | hx
            · exact hlt
            · exact Nat.lt_trans hlt (hnf x hx))] at h1
          simp only [cellRead, if_true] at h1
          exact absurd h1 (hm.2 e (by simp)).2
        · exact heq
        · have h1 := h f.1
          rw [below (e :: m) f.1 (fun x hx => by
            rcases List.mem_cons.mp hx with rfl | hx
            · exact hlt
            · exact Nat.lt_trans hlt (hme x hx))] at h1
          simp only [cellRead, if_true] at h1
          exact absurd h1.symm (hn.2 f (by simp)).2
      have hval : e.2 = f.2 := by
        have h1 := h e.1
        simpa [cellRead, hkey] using h1
      have htail : m = n := by
        refine ih ⟨hmp, fun x hx => hm.2 x (by simp [hx])⟩ ⟨hnp, fun x hx => hn.2 x (by simp [hx])⟩ ?_
        intro a
        have h1 := h a
        by_cases ha : a = e.1
        · subst ha
          rw [below m e.1 hme, below n e.1 (fun x hx => hkey ▸ hnf x hx)]
        · have ha' : ¬ a = f.1 := hkey ▸ ha
          simpa [cellRead, ha, ha'] using h1
      rw [htail, Prod.ext hkey hval]

/-! ### On the state -/

@[simp] theorem dataCell_setDataCell_same (a : Nat) (v : Int) (s : State) :
    dataCell (setDataCell a v s) a = v :=
  cellRead_write_same _ _ _ _

theorem dataCell_setDataCell_ne {a b : Nat} (hb : b ≠ a) (v : Int) (s : State) :
    dataCell (setDataCell a v s) b = dataCell s b :=
  cellRead_write_ne _ _ hb v

/-- Storing to a cell that exists keeps both memories canonical. -/
theorem setDataCell_wf {a : Nat} (v : Int) {s : State} (hs : Memory.wf s)
    (ha : a < s.params.dataCap) : Memory.wf (setDataCell a v s) :=
  ⟨hs.1, cellWrite_wf v hs.2 ha⟩

/-- The host's write of a code byte keeps both memories canonical. -/
theorem setCodeByte_wf (a : Nat) (b : Byte) {s : State} (hs : Memory.wf s) :
    Memory.wf (setCodeByte a b s) := by
  refine ⟨?_, hs.2⟩
  show cellsWf initialCode s.params.codeCap (if a < s.params.codeCap then _ else _)
  split
  · next h => exact cellWrite_wf b hs.1 h
  · exact hs.1

theorem codeByte_setCodeByte_same {a : Nat} (b : Byte) {s : State} (ha : a < s.params.codeCap) :
    codeByte (setCodeByte a b s) a = b := by
  simp [codeByte, setCodeByte, ha, cellRead_write_same]

theorem codeByte_setCodeByte_ne {a x : Nat} (hx : x ≠ a) (b : Byte) (s : State) :
    codeByte (setCodeByte a b s) x = codeByte s x := by
  unfold codeByte setCodeByte
  dsimp only
  split
  · exact cellRead_write_ne _ _ hx b
  · rfl

theorem reset_memory_wf : Memory.wf State.reset := by
  simp [Memory.wf, cellsWf, State.reset]

end Sys2Proof.Machine
end

