-- ==== Sys2Proof/Laws/Launch.lean ====
section
/-! SUPPORT. What loading a program and setting presets leave in the memories. -/

namespace Sys2Proof.Machine

/-- A loaded image is canonical, and lists nothing below its start. -/
theorem imageCells_wf (bytes : List Byte) {a cap : Nat} (h : a + bytes.length ≤ cap) :
    cellsWf initialCode cap (imageCells a bytes) ∧ ∀ e ∈ imageCells a bytes, a ≤ e.1 := by
  induction bytes generalizing a with
  | nil => simp [imageCells, cellsWf]
  | cons b bytes ih =>
    simp only [List.length_cons] at h
    obtain ⟨⟨hp, hv⟩, hlow⟩ := ih (a := a + 1) (by omega)
    unfold imageCells
    split
    · exact ⟨⟨hp, hv⟩, fun e he => by have := hlow e he; omega⟩
    · next hb =>
      refine ⟨⟨List.pairwise_cons.mpr ⟨fun e he => hlow e he, hp⟩, fun e he => ?_⟩, fun e he => ?_⟩
      · rcases List.mem_cons.mp he with rfl | he
        · exact ⟨by show a < cap; omega, hb⟩
        · exact hv e he
      · rcases List.mem_cons.mp he with rfl | he
        · exact Nat.le_refl _
        · have := hlow e he
          omega

/-- A loaded image reads as its bytes, then zero bytes (R142). -/
theorem cellRead_imageCells (bytes : List Byte) (a x : Nat) :
    cellRead initialCode (imageCells a bytes) x =
      if a ≤ x then bytes.getD (x - a) 0 else 0 := by
  induction bytes generalizing a with
  | nil => simp [imageCells, cellRead, initialCode]
  | cons b bytes ih =>
    have head : cellRead initialCode (imageCells a (b :: bytes)) x =
        if x = a then b else cellRead initialCode (imageCells (a + 1) bytes) x := by
      rw [show imageCells a (b :: bytes) = if b = 0 then imageCells (a + 1) bytes
        else (a, b) :: imageCells (a + 1) bytes from rfl]
      split
      · next hb =>
        rw [ih]
        split_ifs with h1 h2 h2
        · omega
        · rfl
        · exact hb.symm
        · rfl
      · rfl
    rw [head, ih]
    rcases Nat.lt_trichotomy x a with h | rfl | h
    · rw [if_neg (by omega), if_neg (by omega), if_neg (by omega)]
    · simp
    · rw [if_neg (by omega), if_pos (by omega), if_pos (by omega),
        show x - a = x - (a + 1) + 1 by omega, List.getD_cons_succ]

/-- Writing presets inside data memory keeps the canonical form. -/
theorem foldl_write_wf (p : Params) (presets : List (Nat × Int)) {m : List (Nat × Int)}
    (hm : cellsWf (initialData p) p.dataCap m) (h : ∀ e ∈ presets, e.1 < p.dataCap) :
    cellsWf (initialData p) p.dataCap
      (presets.foldl (fun m e => cellWrite (initialData p) m e.1 e.2) m) := by
  induction presets generalizing m with
  | nil => exact hm
  | cons e presets ih =>
    exact ih (cellWrite_wf _ hm (h e (by simp))) fun x hx => h x (by simp [hx])

theorem presetCells_wf {p : Params} {presets : List (Nat × Int)}
    (h : ∀ e ∈ presets, e.1 < p.dataCap) :
    cellsWf (initialData p) p.dataCap (presetCells p presets) :=
  foldl_write_wf p presets (by simp [cellsWf]) h

/-- A cell that no preset names keeps what it held. -/
theorem cellRead_foldl_write (p : Params) (presets : List (Nat × Int)) (m : List (Nat × Int))
    {a : Nat} (h : ∀ e ∈ presets, e.1 ≠ a) :
    cellRead (initialData p) (presets.foldl (fun m e => cellWrite (initialData p) m e.1 e.2) m) a =
      cellRead (initialData p) m a := by
  induction presets generalizing m with
  | nil => rfl
  | cons e presets ih =>
    rw [List.foldl_cons, ih _ fun x hx => h x (by simp [hx]),
      cellRead_write_ne _ _ (h e (by simp)).symm]

/-- What a launch that is not refused starts from. -/
theorem launch_of_fits {p : Params} {program : List Byte} {presets : List (Nat × Int)}
    (hl : program.length ≤ p.codeCap) (hp : ∀ e ∈ presets, e.1 < p.dataCap) :
    launch p program presets =
      .ok
        { params := p, run := .running, ip := 0, stack := [], code := imageCells 0 program,
          data := presetCells p presets, fault := none, freeCount := 0 } := by
  unfold launch
  rw [if_neg (by omega), if_pos (by simpa using hp)]

/-- The records of an export, one by one. -/
theorem exportCells_getElem? (s : State) (a n k : Nat) :
    (exportCells s a n)[k]? = if k < n then some (a + k, dataCell s (a + k)) else none := by
  induction n generalizing a k with
  | zero => simp [exportCells]
  | succ n ih =>
    cases k with
    | zero => simp [exportCells]
    | succ k =>
      simp only [exportCells, List.getElem?_cons_succ, ih, Nat.add_lt_add_iff_right]
      rw [show a + 1 + k = a + (k + 1) by omega]

end Sys2Proof.Machine
end

