-- ==== Sys2Proof/Laws/Ops.lean ====
section
/-! SUPPORT. For each shared operation, once, everything it can do. -/

namespace Sys2Proof.Machine

/-! ### Operand forms -/

@[simp] theorem immediate_eq (n : Nat) : immediate n = (n : Int) := rfl

/-- Translation is the identity on the cells that exist. -/
theorem translate_eq_some {p : Params} {a : Int} {c : Nat} :
    translate p a = some c ↔ a = (c : Int) ∧ c < p.dataCap := by
  unfold translate
  split
  · next h =>
    simp only [Option.some.injEq, Int.ofNat_eq_natCast] at h ⊢
    omega
  · next h =>
    simp only [Int.ofNat_eq_natCast, reduceCtorEq, false_iff] at h ⊢
    omega

/-- Translation refuses exactly the integers outside `[0, DATA_CAP)`. -/
theorem translate_eq_none {p : Params} {a : Int} :
    translate p a = none ↔ a < 0 ∨ (p.dataCap : Int) ≤ a := by
  unfold translate
  split
  · next h =>
    simp only [Int.ofNat_eq_natCast, reduceCtorEq, false_iff] at h ⊢
    omega
  · next h =>
    simp only [Int.ofNat_eq_natCast, true_iff] at h ⊢
    omega

theorem translate_immediate_of_lt {p : Params} {n : Nat} (h : n < p.dataCap) :
    translate p (immediate n) = some n :=
  translate_eq_some.mpr ⟨rfl, h⟩

theorem translate_immediate_of_le {p : Params} {n : Nat} (h : p.dataCap ≤ n) :
    translate p (immediate n) = none :=
  translate_eq_none.mpr (.inr (by simpa using h))

/-! ### The end of a handler -/

@[simp] theorem finish_ok (s : State) : finish (.ok s) = .next (advance s) := rfl
@[simp] theorem finish_error (s : State) : finish (.error s) = .next s := rfl

/-- A handler's step always answers a next state. -/
theorem finish_cases {r : Except State State} {t : State} (h : finish r = .next t) :
    (∃ s, r = .ok s ∧ t = advance s) ∨ r = .error t := by
  cases r with
  | ok s => exact .inl ⟨s, rfl, by simpa using h.symm⟩
  | error s => exact .inr (by simpa using h)

/-! ### The stack unit -/

@[simp] theorem depth_setStack (st : List Int) (s : State) : depth (setStack st s) = st.length := rfl

theorem stackFull_iff {s : State} :
    stackFull s = true ↔ ∃ n, s.params.stackDepth = some n ∧ n ≤ depth s := by
  unfold stackFull
  cases s.params.stackDepth <;> simp

theorem stackFull_eq_false {s : State} :
    stackFull s = false ↔ ∀ n, s.params.stackDepth = some n → depth s < n := by
  unfold stackFull
  cases s.params.stackDepth <;> simp

theorem push_of_room {s : State} (h : stackFull s = false) (op : Opcode) (n : Nat) (v : Int) :
    push op n v s = .ok (setStack (s.stack ++ [v]) s) := by
  simp [push, h]

theorem push_of_full {s : State} (h : stackFull s = true) (op : Opcode) (n : Nat) (v : Int) :
    push op n v s = .error (raise .stackOverflow op.tag n none s) := by
  simp [push, h]

/-- A push appends the value, or overflows a full stack. -/
theorem push_cases (op : Opcode) (n : Nat) (v : Int) (s : State) :
    (stackFull s = false ∧ push op n v s = .ok (setStack (s.stack ++ [v]) s)) ∨
      (stackFull s = true ∧ push op n v s = .error (raise .stackOverflow op.tag n none s)) := by
  cases h : stackFull s
  · exact .inl ⟨rfl, push_of_room h op n v⟩
  · exact .inr ⟨rfl, push_of_full h op n v⟩

theorem popOne_of_append {s : State} {rest : List Int} {v : Int} (h : s.stack = rest ++ [v])
    (op : Opcode) (n : Nat) : popOne op n s = .ok (v, setStack rest s) := by
  simp [popOne, h]

theorem popOne_of_empty {s : State} (h : s.stack = []) (op : Opcode) (n : Nat) :
    popOne op n s = .error (raiseUnderflow op.tag n s) := by
  simp [popOne, h]

/-- A pop takes the top entry, or underflows an empty stack. -/
theorem popOne_cases (op : Opcode) (n : Nat) (s : State) :
    (s.stack = [] ∧ popOne op n s = .error (raiseUnderflow op.tag n s)) ∨
      ∃ rest v, s.stack = rest ++ [v] ∧ popOne op n s = .ok (v, setStack rest s) := by
  rcases List.eq_nil_or_concat s.stack with h | ⟨rest, v, h⟩
  · exact .inl ⟨h, popOne_of_empty h op n⟩
  · exact .inr ⟨rest, v, by simpa using h, popOne_of_append (by simpa using h) op n⟩

theorem popTwo_of_append {s : State} {rest : List Int} {second first : Int}
    (h : s.stack = rest ++ [second, first]) (op : Opcode) (n : Nat) :
    popTwo op n s = .ok (first, second, setStack rest s) := by
  simp [popTwo, h]

theorem popTwo_of_short {s : State} (h : depth s < 2) (op : Opcode) (n : Nat) :
    popTwo op n s = .error (raiseUnderflow op.tag n s) := by
  unfold popTwo
  split
  · next e =>
    have := congrArg List.length e
    simp only [List.length_reverse, List.length_cons] at this
    unfold depth at h
    omega
  · rfl

/-- Two pops take the two top entries, or underflow a stack of fewer. -/
theorem popTwo_cases (op : Opcode) (n : Nat) (s : State) :
    (depth s < 2 ∧ popTwo op n s = .error (raiseUnderflow op.tag n s)) ∨
      ∃ rest second first, s.stack = rest ++ [second, first] ∧
        popTwo op n s = .ok (first, second, setStack rest s) := by
  by_cases h : depth s < 2
  · exact .inl ⟨h, popTwo_of_short h op n⟩
  · rcases List.eq_nil_or_concat s.stack with h0 | ⟨l, first, h1⟩
    · simp [depth, h0] at h
    · rcases List.eq_nil_or_concat l with h2 | ⟨rest, second, h2⟩
      · simp [depth, h1, h2] at h
      · have e : s.stack = rest ++ [second, first] := by simp [h1, h2]
        exact .inr ⟨rest, second, first, e, popTwo_of_append e op n⟩

/-! ### Data accesses -/

theorem loadCell_of_cell {s : State} {a : Int} {c : Nat} (h : translate s.params a = some c)
    (op : Opcode) (n : Nat) : loadCell op n a s = .ok (dataCell s c) := by
  simp [loadCell, h]

theorem loadCell_of_none {s : State} {a : Int} (h : translate s.params a = none)
    (op : Opcode) (n : Nat) :
    loadCell op n a s = .error (raise .outOfBoundsRead op.tag n (some a) s) := by
  simp [loadCell, h]

/-- A load reads the cell the address names, or faults where it names none. -/
theorem loadCell_cases (op : Opcode) (n : Nat) (a : Int) (s : State) :
    (translate s.params a = none ∧
        loadCell op n a s = .error (raise .outOfBoundsRead op.tag n (some a) s)) ∨
      ∃ c, translate s.params a = some c ∧ loadCell op n a s = .ok (dataCell s c) := by
  cases h : translate s.params a with
  | none => exact .inl ⟨rfl, loadCell_of_none h op n⟩
  | some c => exact .inr ⟨c, rfl, loadCell_of_cell h op n⟩

theorem storeCell_of_cell {s : State} {a : Int} {c : Nat} (h : translate s.params a = some c)
    (op : Opcode) (n : Nat) (v : Int) : storeCell op n a v s = .ok (setDataCell c v s) := by
  simp [storeCell, h]

theorem storeCell_of_none {s : State} {a : Int} (h : translate s.params a = none)
    (op : Opcode) (n : Nat) (v : Int) :
    storeCell op n a v s = .error (raise .outOfBoundsWrite op.tag n (some a) s) := by
  simp [storeCell, h]

/-- A store writes the cell the address names, or faults where it names none. -/
theorem storeCell_cases (op : Opcode) (n : Nat) (a v : Int) (s : State) :
    (translate s.params a = none ∧
        storeCell op n a v s = .error (raise .outOfBoundsWrite op.tag n (some a) s)) ∨
      ∃ c, translate s.params a = some c ∧ storeCell op n a v s = .ok (setDataCell c v s) := by
  cases h : translate s.params a with
  | none => exact .inl ⟨rfl, storeCell_of_none h op n v⟩
  | some c => exact .inr ⟨c, rfl, storeCell_of_cell h op n v⟩

/-! ### Fetch -/

theorem codeEnd_iff {s : State} : codeEnd s = true ↔ s.params.codeCap < s.ip + 3 := by
  simp [codeEnd]

theorem codeEnd_eq_false {s : State} : codeEnd s = false ↔ s.ip + 3 ≤ s.params.codeCap := by
  simp [codeEnd]

/-- Decoding the fetched bytes is decoding the fetched word. -/
theorem decode_fetchBytes (s : State) :
    decode (fetchBytes s) =
      match decodeWord (fetchWord s) with
      | .ok i => .ok (i, [])
      | .error u => .error (.unknownOpcode u) := rfl

end Sys2Proof.Machine
end

