-- ==== Sys2Proof/Laws/PerInstr.lean ====
section
/-! SUPPORT. Facts about every instruction as syntax, one lemma per constructor. -/

namespace Sys2Proof.Laws

/-- Every instruction's word is 3 bytes long in both encoders (R60), and its whole-operand word
leaves bits 23:19 zero (R62). -/
def WordShape.Statement (i : Instr) : Prop :=
  (encode i).length = 3 ∧ (encodeVerbatim i).length = 3 ∧ (verbatimWord i).toNat < 2 ^ 19

theorem packWord_shape (t : Tag) (n : Nat) : (packWord t (n % 65536)).toNat < 2 ^ 19 := by
  have ht := t.isLt
  rw [packWord_toNat t (by omega)]
  omega

theorem WordShape.loadConst (n : Nat) : WordShape.Statement (.loadConst n) :=
  ⟨rfl, rfl, packWord_shape _ n⟩

theorem WordShape.readMem (n : Nat) : WordShape.Statement (.readMem n) :=
  ⟨rfl, rfl, packWord_shape _ n⟩

theorem WordShape.writeMem (n : Nat) : WordShape.Statement (.writeMem n) :=
  ⟨rfl, rfl, packWord_shape _ n⟩

theorem WordShape.lessOrEq (n : Nat) : WordShape.Statement (.lessOrEq n) :=
  ⟨rfl, rfl, packWord_shape _ n⟩

theorem WordShape.sentinel : WordShape.Statement .sentinel := ⟨rfl, rfl, by decide⟩

end Sys2Proof.Laws
end

