-- ==== Sys2Proof/Laws/Step.lean ====
section
/-! SUPPORT. Everything a meaning, `exec` and `step` can do, said once: later proofs cite these and
unfold no meaning. -/

namespace Sys2Proof.Machine

/-- LoadConst pushes, or overflows. -/
theorem execLoadConst_cases {n : Nat} {s t : State} (h : execLoadConst n s = .next t) :
    (stackFull s = false ∧ t = advance (setStack (s.stack ++ [(n : Int)]) s)) ∨
      (stackFull s = true ∧ t = raise .stackOverflow Opcode.loadConst.tag n none s) := by
  unfold execLoadConst at h
  rcases push_cases .loadConst n (immediate n) s with ⟨hf, e⟩ | ⟨hf, e⟩ <;> rw [e] at h
  · exact .inl ⟨hf, by simpa using h.symm⟩
  · exact .inr ⟨hf, by simpa using h.symm⟩

/-- ReadMem faults out of bounds, or pushes the cell, or overflows. -/
theorem execReadMem_cases {n : Nat} {s t : State} (h : execReadMem n s = .next t) :
    (s.params.dataCap ≤ n ∧ t = raise .outOfBoundsRead Opcode.readMem.tag n (some (n : Int)) s) ∨
      (n < s.params.dataCap ∧ stackFull s = false ∧
        t = advance (setStack (s.stack ++ [dataCell s n]) s)) ∨
      (n < s.params.dataCap ∧ stackFull s = true ∧
        t = raise .stackOverflow Opcode.readMem.tag n none s) := by
  unfold execReadMem at h
  by_cases hn : n < s.params.dataCap
  · rw [loadCell_of_cell (translate_immediate_of_lt hn)] at h
    rcases push_cases .readMem n (dataCell s n) s with ⟨hf, e⟩ | ⟨hf, e⟩ <;>
      simp only [bind, Except.bind, e] at h
    · exact .inr (.inl ⟨hn, hf, by simpa using h.symm⟩)
    · exact .inr (.inr ⟨hn, hf, by simpa using h.symm⟩)
  · have hn := Nat.le_of_not_lt hn
    rw [loadCell_of_none (translate_immediate_of_le hn)] at h
    simp only [bind, Except.bind] at h
    exact .inl ⟨hn, by simpa using h.symm⟩

/-- WriteMem underflows, or pops both entries and faults out of bounds, or pops both and stores. -/
theorem execWriteMem_cases {n : Nat} {s t : State} (h : execWriteMem n s = .next t) :
    (depth s < 2 ∧ t = raiseUnderflow Opcode.writeMem.tag n s) ∨
      ∃ rest v a, s.stack = rest ++ [v, a] ∧
        ((translate s.params a = none ∧
            t = raise .outOfBoundsWrite Opcode.writeMem.tag n (some a) (setStack rest s)) ∨
          ∃ c, translate s.params a = some c ∧
            t = advance (setDataCell c v (setStack rest s))) := by
  unfold execWriteMem at h
  rcases popTwo_cases .writeMem n s with ⟨hd, e⟩ | ⟨rest, v, a, hs, e⟩ <;>
    simp only [bind, Except.bind, e] at h
  · exact .inl ⟨hd, by simpa using h.symm⟩
  · refine .inr ⟨rest, v, a, hs, ?_⟩
    rcases storeCell_cases .writeMem n a v (setStack rest s) with ⟨ht, e⟩ | ⟨c, ht, e⟩ <;>
      rw [e] at h
    · exact .inl ⟨ht, by simpa using h.symm⟩
    · exact .inr ⟨c, ht, by simpa using h.symm⟩

/-- LessOrEq underflows, or pops and faults out of bounds, or pops and pushes the comparison. The
overflow case needs a stack that was past its finite depth already. -/
theorem execLessOrEq_cases {n : Nat} {s t : State} (h : execLessOrEq n s = .next t) :
    (s.stack = [] ∧ t = raiseUnderflow Opcode.lessOrEq.tag n s) ∨
      ∃ rest right, s.stack = rest ++ [right] ∧
        ((s.params.dataCap ≤ n ∧
            t = raise .outOfBoundsRead Opcode.lessOrEq.tag n (some (n : Int)) (setStack rest s)) ∨
          (n < s.params.dataCap ∧ stackFull (setStack rest s) = false ∧
            t = advance (setStack (rest ++ [comparison (dataCell s n) right]) s)) ∨
          (n < s.params.dataCap ∧ stackFull (setStack rest s) = true ∧
            t = raise .stackOverflow Opcode.lessOrEq.tag n none (setStack rest s))) := by
  unfold execLessOrEq at h
  rcases popOne_cases .lessOrEq n s with ⟨hd, e⟩ | ⟨rest, right, hs, e⟩ <;>
    simp only [bind, Except.bind, e] at h
  · exact .inl ⟨hd, by simpa using h.symm⟩
  · refine .inr ⟨rest, right, hs, ?_⟩
    by_cases hn : n < s.params.dataCap
    · rw [loadCell_of_cell (s := setStack rest s) (translate_immediate_of_lt hn)] at h
      rcases push_cases .lessOrEq n (comparison (dataCell (setStack rest s) n) right)
        (setStack rest s) with ⟨hf, e⟩ | ⟨hf, e⟩ <;> simp only [e] at h
      · exact .inr (.inl ⟨hn, hf, by simpa using h.symm⟩)
      · exact .inr (.inr ⟨hn, hf, by simpa using h.symm⟩)
    · have hn := Nat.le_of_not_lt hn
      rw [loadCell_of_none (s := setStack rest s) (translate_immediate_of_le hn)] at h
      exact .inl ⟨hn, by simpa using h.symm⟩

/-- Every meaning answers a next state, whatever the operand and the state. -/
theorem exec_next (i : Instr) (s : State) : ∃ t, exec i s = .next t := by
  have fin : ∀ r, ∃ t, finish r = .next t := fun r => by cases r <;> exact ⟨_, rfl⟩
  cases i with
  | loadConst n => exact fin _
  | readMem n => exact fin _
  | writeMem n => exact fin _
  | lessOrEq n => exact fin _
  | sentinel => exact ⟨_, rfl⟩

/-- A step that answers a next state was taken while Running: it halted at the end of code memory,
or ran the decoded instruction, or took `UnknownOpcode`. -/
theorem step_cases {s t : State} (h : step s = .next t) :
    s.run = .running ∧
      ((codeEnd s = true ∧ t = halt s) ∨
        (codeEnd s = false ∧ ∃ i, decodeWord (fetchWord s) = .ok i ∧ exec i s = .next t) ∨
        (codeEnd s = false ∧ ∃ u, decodeWord (fetchWord s) = .error u ∧
          t = raiseUnknownOpcode u s)) := by
  unfold step at h
  split at h
  · cases h
  · cases h
  · next hr =>
    refine ⟨hr, ?_⟩
    split at h
    · next he => exact .inl ⟨he, by simpa using h.symm⟩
    · next he =>
      have he : codeEnd s = false := by simpa using he
      split at h
      · next i hi => exact .inr (.inl ⟨he, i, hi, h⟩)
      · next u hu => exact .inr (.inr ⟨he, u, hu, by simpa using h.symm⟩)

/-- The fetched word's value. -/
theorem fetchWord_toNat (s : State) : (fetchWord s).toNat = wordNumber s := by
  rw [fetchWord, le3_toNat]
  rfl

/-- Everything a step from a Running state can do, by the word's value: one constructor for each way
a step ends. -/
inductive StepCase (s : State) : State → Prop
  | halt (h : s.params.codeCap < s.ip + 3 ∨ wordNumber s = 0) : StepCase s (halt s)
  | unknownOpcode (hc : s.ip + 3 ≤ s.params.codeCap) (h0 : wordNumber s ≠ 0)
      (ht : wordNumber s % 8 ∈ [0, 3, 6, 7]) (u : UnknownOpcode)
      (htag : u.tag.toNat = wordNumber s % 8) (hopnd : u.opnd = wordNumber s / 8 % 65536) :
      StepCase s (raiseUnknownOpcode u s)
  | loadConst (hc : s.ip + 3 ≤ s.params.codeCap) (ht : wordNumber s % 8 = 5)
      (hf : stackFull s = false) :
      StepCase s (advance (setStack (s.stack ++ [((wordNumber s / 8 % 65536 : Nat) : Int)]) s))
  | loadConstFull (hc : s.ip + 3 ≤ s.params.codeCap) (ht : wordNumber s % 8 = 5)
      (hf : stackFull s = true) :
      StepCase s (raise .stackOverflow Opcode.loadConst.tag (wordNumber s / 8 % 65536) none s)
  | readMem (hc : s.ip + 3 ≤ s.params.codeCap) (ht : wordNumber s % 8 = 4)
      (hb : wordNumber s / 8 % 65536 < s.params.dataCap) (hf : stackFull s = false) :
      StepCase s (advance (setStack (s.stack ++ [dataCell s (wordNumber s / 8 % 65536)]) s))
  | readMemFull (hc : s.ip + 3 ≤ s.params.codeCap) (ht : wordNumber s % 8 = 4)
      (hb : wordNumber s / 8 % 65536 < s.params.dataCap) (hf : stackFull s = true) :
      StepCase s (raise .stackOverflow Opcode.readMem.tag (wordNumber s / 8 % 65536) none s)
  | readMemOut (hc : s.ip + 3 ≤ s.params.codeCap) (ht : wordNumber s % 8 = 4)
      (hb : s.params.dataCap ≤ wordNumber s / 8 % 65536) :
      StepCase s (raise .outOfBoundsRead Opcode.readMem.tag (wordNumber s / 8 % 65536)
        (some ((wordNumber s / 8 % 65536 : Nat) : Int)) s)
  | writeMem (hc : s.ip + 3 ≤ s.params.codeCap) (ht : wordNumber s % 8 = 2) (rest : List Int)
      (v a : Int) (c : Nat) (hs : s.stack = rest ++ [v, a]) (hb : translate s.params a = some c) :
      StepCase s (advance (setDataCell c v (setStack rest s)))
  | writeMemOut (hc : s.ip + 3 ≤ s.params.codeCap) (ht : wordNumber s % 8 = 2) (rest : List Int)
      (v a : Int) (hs : s.stack = rest ++ [v, a]) (hb : translate s.params a = none) :
      StepCase s (raise .outOfBoundsWrite Opcode.writeMem.tag (wordNumber s / 8 % 65536) (some a)
        (setStack rest s))
  | writeMemShort (hc : s.ip + 3 ≤ s.params.codeCap) (ht : wordNumber s % 8 = 2)
      (hd : depth s < 2) :
      StepCase s (raiseUnderflow Opcode.writeMem.tag (wordNumber s / 8 % 65536) s)
  | lessOrEq (hc : s.ip + 3 ≤ s.params.codeCap) (ht : wordNumber s % 8 = 1) (rest : List Int)
      (right : Int) (hs : s.stack = rest ++ [right])
      (hb : wordNumber s / 8 % 65536 < s.params.dataCap)
      (hf : stackFull (setStack rest s) = false) :
      StepCase s (advance (setStack
        (rest ++ [comparison (dataCell s (wordNumber s / 8 % 65536)) right]) s))
  | lessOrEqFull (hc : s.ip + 3 ≤ s.params.codeCap) (ht : wordNumber s % 8 = 1) (rest : List Int)
      (right : Int) (hs : s.stack = rest ++ [right])
      (hb : wordNumber s / 8 % 65536 < s.params.dataCap)
      (hf : stackFull (setStack rest s) = true) :
      StepCase s (raise .stackOverflow Opcode.lessOrEq.tag (wordNumber s / 8 % 65536) none
        (setStack rest s))
  | lessOrEqOut (hc : s.ip + 3 ≤ s.params.codeCap) (ht : wordNumber s % 8 = 1) (rest : List Int)
      (right : Int) (hs : s.stack = rest ++ [right])
      (hb : s.params.dataCap ≤ wordNumber s / 8 % 65536) :
      StepCase s (raise .outOfBoundsRead Opcode.lessOrEq.tag (wordNumber s / 8 % 65536)
        (some ((wordNumber s / 8 % 65536 : Nat) : Int)) (setStack rest s))
  | lessOrEqEmpty (hc : s.ip + 3 ≤ s.params.codeCap) (ht : wordNumber s % 8 = 1)
      (hs : s.stack = []) :
      StepCase s (raiseUnderflow Opcode.lessOrEq.tag (wordNumber s / 8 % 65536) s)

/-- The inversion of `step`: if it answers a next state, one of the cases holds. -/
theorem step_case {s t : State} (h : step s = .next t) : s.run = .running ∧ StepCase s t := by
  obtain ⟨hr, h⟩ := step_cases h
  refine ⟨hr, ?_⟩
  have hopnd : opndField (fetchWord s) = wordNumber s / 8 % 65536 := by
    rw [opndField_eq, fetchWord_toNat]
  have htag : (tagField (fetchWord s)).toNat = wordNumber s % 8 := by
    rw [tagField_toNat, fetchWord_toNat]
  rcases h with ⟨he, rfl⟩ | ⟨he, i, hi, ht⟩ | ⟨he, u, hu, rfl⟩
  · exact .halt (.inl (codeEnd_iff.mp he))
  · have hc := codeEnd_eq_false.mp he
    rcases decodeWord_cases (fetchWord s) with ⟨h0, e⟩ | ⟨h0, op, hop, e⟩ | ⟨h0, hop, e⟩ <;>
      rw [e] at hi <;> cases hi
    · obtain rfl : halt s = t := by simpa [exec, execSentinel] using ht
      exact .halt (.inr (by rw [← fetchWord_toNat, h0]; rfl))
    · rw [hop] at htag
      rw [hopnd] at ht
      cases op with
      | loadConst =>
        rcases execLoadConst_cases ht with ⟨hf, rfl⟩ | ⟨hf, rfl⟩
        · exact .loadConst hc htag.symm hf
        · exact .loadConstFull hc htag.symm hf
      | readMem =>
        rcases execReadMem_cases ht with ⟨hb, rfl⟩ | ⟨hb, hf, rfl⟩ | ⟨hb, hf, rfl⟩
        · exact .readMemOut hc htag.symm hb
        · exact .readMem hc htag.symm hb hf
        · exact .readMemFull hc htag.symm hb hf
      | writeMem =>
        rcases execWriteMem_cases ht with ⟨hd, rfl⟩ | ⟨rest, v, a, hs, ⟨hb, rfl⟩ | ⟨c, hb, rfl⟩⟩
        · exact .writeMemShort hc htag.symm hd
        · exact .writeMemOut hc htag.symm rest v a hs hb
        · exact .writeMem hc htag.symm rest v a c hs hb
      | lessOrEq =>
        rcases execLessOrEq_cases ht with
          ⟨hs, rfl⟩ | ⟨rest, right, hs, ⟨hb, rfl⟩ | ⟨hb, hf, rfl⟩ | ⟨hb, hf, rfl⟩⟩
        · exact .lessOrEqEmpty hc htag.symm hs
        · exact .lessOrEqOut hc htag.symm rest right hs hb
        · exact .lessOrEq hc htag.symm rest right hs hb hf
        · exact .lessOrEqFull hc htag.symm rest right hs hb hf
  · have hc := codeEnd_eq_false.mp he
    rcases decodeWord_cases (fetchWord s) with ⟨h0, e⟩ | ⟨h0, op, hop, e⟩ | ⟨h0, hop, e⟩ <;>
      rw [e] at hu <;> cases hu
    refine .unknownOpcode hc ?_ ?_ _ htag hopnd
    · rw [← fetchWord_toNat]
      exact fun h => h0 (BitVec.eq_of_toNat_eq h)
    · rw [← htag]
      generalize tagField (fetchWord s) = g at hop
      revert hop
      revert g
      decide

/-! ### The word the host places -/

/-- Where a word fits at `ip`, the step after `withFetchWord` runs the instruction the table word
decodes to. -/
theorem step_withFetchWord {s : State} {nbits w : Nat} {i : Instr}
    (hc : s.ip + 3 ≤ s.params.codeCap) (h : decodeTableWord nbits w = some i) :
    step (s.withFetchWord nbits w) = exec i (s.withFetchWord nbits w) := by
  generalize ht : s.withFetchWord nbits w = t
  simp only [State.withFetchWord, tableBytes, wordBytes] at ht
  generalize hv : BitVec.ofNat 24 (w % 2 ^ nbits) = v at ht
  have hfetch : fetchWord t = v := by
    rw [← ht]
    simp only [fetchWord, setCodeByte_ip]
    rw [codeByte_setCodeByte_ne (by omega), codeByte_setCodeByte_ne (by omega),
      codeByte_setCodeByte_same _ (by simp only; omega),
      codeByte_setCodeByte_ne (by omega),
      codeByte_setCodeByte_same _ (by simp only [setCodeByte_params]; omega),
      codeByte_setCodeByte_same _ (by simp only [setCodeByte_params]; omega)]
    exact le3_wordBytes v
  have hrun : t.run = .running := by rw [← ht]; rfl
  have hend : codeEnd t = false := by rw [← ht]; exact codeEnd_eq_false.mpr hc
  have hdec : decodeWord v = .ok i := by
    have e := decode_wordBytes v []
    rw [List.append_nil] at e
    simp only [decodeTableWord, tableBytes, hv, e] at h
    cases hd : decodeWord v with
    | ok j => simpa [hd] using h
    | error u => simp [hd] at h
  simp [step, hrun, hend, hfetch, hdec]

/-! ### Runs -/

theorem run_zero (s : State) : Host.Core.run Sys2Proof.core 0 s = .next s := rfl

theorem run_succ_of_next {s t : State} (h : step s = .next t) (k : Nat) :
    Host.Core.run Sys2Proof.core (k + 1) s = Host.Core.run Sys2Proof.core k t := by
  simp only [Host.Core.run]
  rw [show Sys2Proof.core.step s = .next t from h]

/-- A run of at least one step begins with a step that answers a next state. -/
theorem run_succ_cases {k : Nat} {s u : State}
    (h : Host.Core.run Sys2Proof.core (k + 1) s = .next u) :
    ∃ t, step s = .next t ∧ Host.Core.run Sys2Proof.core k t = .next u := by
  cases hs : step s with
  | next t => exact ⟨t, rfl, by rwa [run_succ_of_next hs] at h⟩
  | fault r =>
    simp only [Host.Core.run] at h
    rw [show Sys2Proof.core.step s = .fault r from hs] at h
    cases h
  | refused r =>
    simp only [Host.Core.run] at h
    rw [show Sys2Proof.core.step s = .refused r from hs] at h
    cases h

end Sys2Proof.Machine
end

