-- ==== Sys2Proof/Tests/Slice0.lean ====
section
/-! SUPPORT. Tests: the encodings and vectors of spec/95_test_vectors.md, the checks of WellFormed,
and a witness for the hypotheses of every statement that has some. -/

namespace Sys2Proof.Tests

open Sys2Proof.Machine

/-! ### WellFormed: an ill-formed term for each check -/

theorem test_wf_refuses_loadConst : (Instr.loadConst 65536).wf = false := by decide
theorem test_wf_refuses_readMem : (Instr.readMem 99999).wf = false := by decide
theorem test_wf_refuses_writeMem : (Instr.writeMem 65536).wf = false := by decide
theorem test_wf_refuses_lessOrEq : (Instr.lessOrEq 65536).wf = false := by decide
theorem test_wf_accepts_ends : (Instr.loadConst 65535).wf ∧ (Instr.sentinel).wf := by decide
theorem test_encodable_refuses : (Instr.loadConst 512).encodable = false ∧
    (Instr.readMem 8192).encodable = false ∧ (Instr.writeMem 16384).encodable = false ∧
    (Instr.lessOrEq 8192).encodable = false := by decide

/-! ### Decoding: words written out from R63's patterns (S1, D1 to D17) -/

-- 0000 0000 0000 iiii iiii i101 with i = 101010 (42): 0000 0000 | 0000 0001 | 0101 0101
theorem test_decode_loadConst : decode [0b01010101, 0b00000001, 0b00000000] =
    .ok (.loadConst 42, []) := rfl
-- 0000 0000 iiii iiii iiii i100 with i = 1 (S1)
theorem test_decode_readMem : decode [0b00001100, 0b00000000, 0b00000000] =
    .ok (.readMem 1, []) := rfl
-- 0000 000i iiii iiii iiii i010 with all i = 1 (S1)
theorem test_decode_writeMem : decode [0b11111010, 0b11111111, 0b00000001] =
    .ok (.writeMem 16383, []) := rfl
-- 0000 0000 iiii iiii iiii i001 with all i = 1 (S1)
theorem test_decode_lessOrEq : decode [0b11111001, 0b11111111, 0b00000000] =
    .ok (.lessOrEq 8191, []) := rfl
theorem test_decode_sentinel : decode [0, 0, 0] = .ok (.sentinel, []) := rfl
-- D2 to D8
theorem test_decode_unknown :
    decode [0x08, 0, 0] = .error (.unknownOpcode { tag := 0, opnd := 1 }) ∧
    decode [0, 0, 0x08] = .error (.unknownOpcode { tag := 0, opnd := 0 }) ∧
    decode [0x03, 0, 0] = .error (.unknownOpcode { tag := 3, opnd := 0 }) ∧
    decode [0x06, 0, 0] = .error (.unknownOpcode { tag := 6, opnd := 0 }) ∧
    decode [0xFF, 0xFF, 0xFF] = .error (.unknownOpcode { tag := 7, opnd := 65535 }) :=
  ⟨rfl, rfl, rfl, rfl, rfl⟩
-- D10, D11, D12, D15
theorem test_decode_wide :
    decode [0xFD, 0xFF, 0xFF] = .ok (.loadConst 65535, []) ∧
    decode [0x04, 0x00, 0xF8] = .ok (.readMem 0, []) ∧
    decode [0x04, 0x00, 0x04] = .ok (.readMem 32768, []) ∧
    decode [0x02, 0x00, 0x06] = .ok (.writeMem 49152, []) := ⟨rfl, rfl, rfl, rfl⟩
theorem test_decode_short : decode [0x05, 0x00] = .error .truncated := rfl
theorem test_decodeTableWord : decodeTableWord 24 0x155 = some (.loadConst 42) ∧
    decodeTableWord 24 0 = some .sentinel ∧ decodeTableWord 24 3 = none := by decide

/-! ### Encoding (S2, S8, E1 to E8) -/

theorem test_encode_masks : encode (.loadConst 516) = [0x25, 0, 0] ∧
    encode (.loadConst 517) = [0x2D, 0, 0] ∧ encode (.readMem 99999) = [0xFC, 0x34, 0] ∧
    encode (.lessOrEq 8199) = [0x39, 0, 0] ∧ encode (.writeMem 16387) = [0x1A, 0, 0] := by decide
theorem test_encode_example : encode (.loadConst 42) = [0x55, 0x01, 0x00] := by decide
theorem test_assemble : assemble [("load_const", 99), ("write_mem", 0)] =
    .ok [0x1D, 0x03, 0x00, 0x02, 0x00, 0x00] := by rfl
theorem test_assemble_refuses : assemble [("jump", 0)] = .error (.unknownMnemonic "jump") ∧
    assemble [("read_mem", -1)] = .error (.negativeOperand (-1)) := ⟨rfl, rfl⟩

/-! ### One step on a small state -/

/-- 9 bytes of code, 16 cells that start at 0, a stack of at most 3 entries. -/
def smallParams : Params :=
  { codeCap := 9, dataCap := 16, stackDepth := some 3, dataFill := .uniform 0 }

/-- A Running state with a word or more at code address 0. -/
def small (program : List Byte) (stack : List Int) (data : List (Nat × Int)) : State :=
  { params := smallParams, run := .running, ip := 0, stack := stack, code := imageCells 0 program,
    data := data, fault := none, freeCount := 0 }

/-- The next state of an outcome. -/
def after : Host.Outcome State Fault Refusal → Option State
  | .next s => some s
  | _ => none

-- K2
theorem test_step_loadConst : (after (step (small [0x55, 0x01, 0] [7] []))).map
    (fun t => (t.stack, t.ip, t.run)) = some ([7, 42], 3, .running) := by decide
-- K4
theorem test_step_overflow : (after (step (small [0x0D, 0, 0] [4, 5, 6] []))).map
    (fun t => (t.stack, t.ip, faultCode t)) = some ([4, 5, 6], 0, 5) := by decide
-- M2, M4
theorem test_step_readMem : (after (step (small [0x7C, 0, 0] [] [(15, -7)]))).map
    (fun t => (t.stack, t.ip)) = some ([-7], 3) := by decide
-- M3
theorem test_step_readMem_out : (after (step (small [0x84, 0, 0] [] []))).map
    (fun t => (t.stack, t.fault)) = some ([], some
      { kind := .outOfBoundsRead, ip := 0, tag := 4, operand := 16, address := some 16 }) := by decide
-- M7 with a small stack: the operand is ignored
theorem test_step_writeMem : (after (step (small [0xFA, 0xFF, 0x01] [1, 42, 7] []))).map
    (fun t => (t.stack, t.data, t.ip)) = some ([1], [(7, 42)], 3) := by decide
-- M8
theorem test_step_writeMem_out : (after (step (small [0x02, 0, 0] [9, -1] []))).map
    (fun t => (t.stack, t.data, t.fault)) = some ([], [], some
      { kind := .outOfBoundsWrite, ip := 0, tag := 2, operand := 0, address := some (-1) }) := by decide
-- L1, L3
theorem test_step_lessOrEq : (after (step (small [0x01, 0, 0] [10, 20] [(0, 15)]))).map
    State.stack = some [10, 1] ∧ (after (step (small [0x01, 0, 0] [14] [(0, 15)]))).map
    State.stack = some [0] := by decide
-- F2: the pop check comes before the bounds check
theorem test_step_lessOrEq_priority : (after (step (small [0xA1, 0, 0] [] []))).map
    faultCode = some 2 := by decide
-- S3
theorem test_step_sentinel : (after (step (small [0, 0, 0, 0x0D] [] []))).map
    (fun t => (t.run, t.ip)) = some (.halted, 0) := by decide
theorem test_step_terminal : after (step (halt (small [0x0D] [] []))) = none := by decide
-- S5 at handler level
theorem test_exec_readMem_99999 : (after (exec (.readMem 99999) State.reset)).map faultCode =
    some 3 := by decide
theorem test_withFetchWord : after (step (State.reset.withFetchWord 24 0x155)) =
    some { State.reset.withFetchWord 24 0x155 with stack := [42], ip := 3 } := by decide
-- S7
theorem test_export : exportRange (halt (small [] [] [(10, 10), (11, 20), (12, 30)])) 10 12 =
    .ok [(10, 10), (11, 20), (12, 30)] ∧ exportRange (halt (small [] [] [])) 2 1 =
    .error .invalidRange := ⟨rfl, rfl⟩

theorem test_running_host_has_no_move : readBackCell (small [] [] [(3, 7)]) 3 = none ∧
    readBackCell (halt (small [] [] [(3, 7)])) 3 = some 7 ∧
    exportRange (small [] [] []) 2 1 = .error .stillRunning := ⟨rfl, rfl, rfl⟩

/-! ### Witnesses: a state and operands that meet the hypotheses of each statement, at the ends of
each clause's range -/

/-- A state at the last word of code memory. -/
def lastWord (program : List Byte) : State := { small program [] [] with ip := 6 }

theorem witness_DecoderVerdicts : bytesNumber 0 0 0 = 0 ∧ bytesNumber 0xFD 0xFF 0x07 % 8 = 5 ∧
    bytesNumber 0x04 0 0 % 8 = 4 ∧ bytesNumber 0x02 0 0 % 8 = 2 ∧ bytesNumber 0x01 0 0 % 8 = 1 ∧
    bytesNumber 0 0 0x08 ≠ 0 ∧ bytesNumber 0 0 0x08 % 8 = 0 ∧ bytesNumber 0xFF 0xFF 0xFF % 8 = 7 ∧
    bytesNumber 0x03 0 0 % 8 = 3 ∧ bytesNumber 0x06 0 0 % 8 = 6 := by decide
theorem witness_ReferenceEncoderRoundTrip : 511 < 2 ^ Opcode.loadConst.width ∧
    8191 < 2 ^ Opcode.readMem.width ∧ 16383 < 2 ^ Opcode.writeMem.width ∧
    8191 < 2 ^ Opcode.lessOrEq.width := by decide
theorem witness_WholeOperandRoundTrip : (Instr.readMem 65535).wf = true ∧
    Instr.sentinel.wf = true := by decide
theorem witness_DecodedWordIsRecovered : decodeWord 0xFFFFFD = .ok (.loadConst 65535) := rfl
theorem witness_HighBitsIgnored : (0xFFFFFD : InstrWord) ≠ 0 ∧ (0x07FFFD : InstrWord) ≠ 0 ∧
    (0xFFFFFD : InstrWord).toNat % 2 ^ 19 = (0x07FFFD : InstrWord).toNat % 2 ^ 19 := by decide
theorem witness_AssembledProgramDecodes :
    (∃ bytes, assemble [("load_const", 99), ("write_mem", 0)] = .ok bytes) ∧
    [("load_const", (99 : Int)), ("write_mem", 0)][1]? = some ("write_mem", 0) := ⟨⟨_, rfl⟩, rfl⟩

/-- The last word that fits code memory decodes and runs. -/
theorem witness_StepRunsDecodedInstruction :
    let s := lastWord [0, 0, 0, 0, 0, 0, 0x0D]
    s.run = .running ∧ s.ip + 3 ≤ s.params.codeCap ∧
      decode [codeByte s s.ip, codeByte s (s.ip + 1), codeByte s (s.ip + 2)] =
        .ok (.loadConst 1, []) := ⟨rfl, by decide, rfl⟩
theorem witness_CodeEndHalts :
    let s := { small [] [] [] with ip := 9 }
    let l := lastWord [0, 0, 0, 0, 0, 0, 0x0D]
    (s.run = .running ∧ s.params.codeCap < s.ip + 3) ∧
      (l.run = .running ∧ l.ip + 3 = l.params.codeCap ∧
        decodeWord (fetchWord l) = .ok (.loadConst 1)) ∧
      ((∀ a, a < l.params.codeCap → codeByte { l with code := l.code ++ [(9, 1)] } a = codeByte l a) ∧
        ∃ t, step l = .next t) := ⟨by decide, ⟨rfl, rfl, rfl⟩, by decide, _, rfl⟩
theorem witness_SentinelHalts :
    let s := lastWord []
    s.run = .running ∧ s.ip + 3 ≤ s.params.codeCap ∧ wordNumber s = 0 := by decide
theorem witness_NothingAfterSentinelRuns :
    let s := small [0, 0, 0, 0x0D] [] []
    s.run = .running ∧ s.ip + 3 ≤ s.params.codeCap ∧ wordNumber s = 0 := by decide
theorem witness_UnknownOpcodeFaults :
    ∀ program ∈ [[0x00, 0x00, 0x08], [0x03, 0, 0], [0x06, 0, 0], [(0xFF : Byte), 0xFF, 0xFF]],
      let s := small program [] []
      s.run = .running ∧ s.ip + 3 ≤ s.params.codeCap ∧ wordNumber s ≠ 0 ∧
        wordNumber s % 8 ∈ [0, 3, 6, 7] := by decide
theorem witness_StepHasThreeOutcomes : (small [0x0D] [] []).run = .running ∧
    (after (step (small [0x0D] [] []))).map State.run = some .running ∧
    (after (step (small [] [] []))).map State.run = some .halted ∧
    (after (step (small [0x03] [] []))).map State.run = some .faulted := by decide
theorem witness_HaltedOnlyAtEndOrSentinel : ∃ t, step (small [] [] []) = .next t ∧
    t.run = .halted := ⟨_, rfl, rfl⟩
theorem witness_StepReadsOnlyItsWord :
    let s := small [0x0D, 0, 0, 0x15] [] []
    (∀ k, k < 3 → codeByte { s with code := [(0, 0x0D)] } (s.ip + k) = codeByte s (s.ip + k)) ∧
      ∃ t, step s = .next t := ⟨by decide, _, rfl⟩

theorem small_room {program : List Byte} {stack : List Int} {data : List (Nat × Int)}
    (h : stack.length < 3) : HasRoom (small program stack data) := by
  rintro d ⟨⟩
  exact h
theorem small_within {program : List Byte} {stack : List Int} {data : List (Nat × Int)}
    (h : stack.length ≤ 3) : WithinDepth (small program stack data) := by
  rintro d ⟨⟩
  exact h

theorem witness_LoadConstPushesOperand : HasRoom (small [] [1, 2] []) ∧
    (small [] [1, 2, 3] []).params.stackDepth = some 3 ∧ 3 ≤ depth (small [] [1, 2, 3] []) ∧
    tagField 0xFFFFFD = 5 := ⟨small_room (by decide), by decide⟩
theorem witness_ReadMemPushesCell :
    (15 < (small [] [1, 2] []).params.dataCap ∧ HasRoom (small [] [1, 2] [])) ∧
    (small [] [] []).params.dataCap ≤ 16 ∧
    (15 < (small [] [1, 2, 3] []).params.dataCap ∧
      (small [] [1, 2, 3] []).params.stackDepth = some 3 ∧ 3 ≤ depth (small [] [1, 2, 3] [])) ∧
    tagField 0xFFFFFC = 4 := ⟨⟨by decide, small_room (by decide)⟩, by decide⟩
theorem witness_LessOrEqNeverOverflows : WithinDepth (small [] [1, 2, 3] []) ∧
    (small [] [1, 2, 3] []).fault = none ∧
    ∃ t, exec (.lessOrEq 16) (small [] [1, 2, 3] []) = .next t ∧ t.fault ≠ none :=
  ⟨small_within (by decide), rfl, _, rfl, by decide⟩
theorem witness_OutOfBoundsReadFaults : (small [] [1, 2] []).params.dataCap ≤ 16 ∧
    (small [] [1, 2] []).stack = [1] ++ [2] := by decide
theorem witness_PushingInstructionsFrame :
    (∃ t, exec (.loadConst 5) (small [] [1, 2] []) = .next t ∧ t.run = .running) ∧
    ∃ t, exec (.readMem 5) (small [] [1, 2, 3] []) = .next t ∧ t.run = .faulted :=
  ⟨⟨_, rfl, rfl⟩, _, rfl, rfl⟩
theorem witness_WriteMemStores : (small [] [9, 42, 15] []).stack = [9] ++ [42, 15] ∧
    (0 : Int) ≤ 15 ∧ (15 : Int) < (small [] [9, 42, 15] []).params.dataCap ∧
    (small [] [42, 0] []).stack = [] ++ [42, 0] := by decide
theorem witness_OutOfBoundsWriteFaults : (small [] [42, -1] []).stack = [] ++ [42, -1] ∧
    (-1 : Int) < 0 ∧ (small [] [42, 16] []).stack = [] ++ [42, 16] ∧
    ((small [] [42, 16] []).params.dataCap : Int) ≤ 16 := by decide
theorem witness_WriteMemFrame :
    let s := small [] [9, 42, 15] []
    let u := small [] [9] []
    (∃ t, exec (.writeMem 0) s = .next t) ∧
      popTwo .writeMem 0 s = .ok (15, 42, setStack [9] s) ∧
      translate (setStack [9] s).params 15 ≠ some 14 ∧
      (∃ t, exec (.writeMem 0) u = .next t) ∧
      popTwo .writeMem 0 u = .error (raiseUnderflow 2 0 u) :=
  ⟨⟨_, rfl⟩, rfl, by decide, ⟨_, rfl⟩, rfl⟩
theorem witness_WriteMemOperandIgnored :
    (∃ t, exec (.writeMem 0) (small [] [42, 16] []) = .next t) ∧
    ∃ t, exec (.writeMem 16383) (small [] [42, 16] []) = .next t := ⟨⟨_, rfl⟩, _, rfl⟩
theorem witness_ReadMemSeesWriteMem :
    (small [] [9, 42, 15] []).stack = [9] ++ [42, ((15 : Nat) : Int)] ∧
    15 < (small [] [9, 42, 15] []).params.dataCap ∧ WithinDepth (small [] [9, 42, 15] []) :=
  ⟨rfl, by decide, small_within (by decide)⟩
theorem witness_LessOrEqCompares : (small [] [1, 2, 3] []).stack = [1, 2] ++ [3] ∧
    15 < (small [] [1, 2, 3] []).params.dataCap ∧ WithinDepth (small [] [1, 2, 3] []) :=
  ⟨rfl, by decide, small_within (by decide)⟩
theorem witness_LessOrEqFrame :
    (∃ t, exec (.lessOrEq 15) (small [] [1, 2] []) = .next t ∧ t.run = .running) ∧
    ∃ t, exec (.lessOrEq 15) (small [] [] []) = .next t ∧ t.run = .faulted :=
  ⟨⟨_, rfl, rfl⟩, _, rfl, rfl⟩
theorem witness_StackUnderflowFaults : depth (small [] [5] []) < 2 ∧ depth (small [] [] []) < 2 ∧
    depth (small [] [] []) < 1 := by decide
theorem witness_FaultRecordDescribesWord : ∃ t, step (small [0x84] [] []) = .next t ∧
    t.run = .faulted := ⟨_, rfl, rfl⟩

/-- Every kind of fault is reached from a state within its stack depth. -/
theorem witness_FaultKindsByTag :
    WithinDepth (small [0x03] [] []) ∧ WithinDepth (small [0x02] [42, 16] []) ∧
    WithinDepth (small [0x0D] [1, 2, 3] []) ∧
    [small [0x03] [] [], small [0x02] [5] [], small [0x01] [] [], small [0x84] [] [],
      small [0xA1] [1] [], small [0x02] [42, 16] [], small [0x0D] [1, 2, 3] [],
      small [0x0C] [1, 2, 3] []].map (fun s => (after (step s)).map faultCode) =
      [some 1, some 2, some 2, some 3, some 3, some 4, some 5, some 5] :=
  ⟨small_within (by decide), small_within (by decide), small_within (by decide), by decide⟩
theorem witness_NoReadFaultWithFullDataMemory :
    let s := { small [0x02] [42, -1] [] with params := { smallParams with dataCap := 65536 } }
    65536 ≤ s.params.dataCap ∧ s.fault = none ∧ ∃ t, step s = .next t ∧ t.fault ≠ none :=
  ⟨by decide, rfl, _, rfl, by decide⟩
theorem witness_FaultCodes : (halt (small [] [1] [])).fault = none ∧
    ∃ r, (raise .stackOverflow 5 1 none (small [] [] [])).fault = some r := ⟨rfl, _, rfl⟩
theorem witness_CodeMemoryReadOnly :
    (∃ t, exec (.writeMem 0) (small [] [42, 0] []) = .next t) ∧
    (∃ t, step (small [0x02] [42, 0] []) = .next t) ∧
    (∀ n, Instr.lessOrEq 0 ≠ .writeMem n) ∧
    ∃ t, exec (.lessOrEq 0) (small [] [42] []) = .next t := ⟨⟨_, rfl⟩, ⟨_, rfl⟩, nofun, _, rfl⟩
theorem witness_OnlyWriteMemWritesData : ∃ t, step (small [0x02] [42, 0] []) = .next t ∧
    t.data ≠ (small [0x02] [42, 0] []).data := ⟨_, rfl, by decide⟩
theorem witness_DepthChangesByFixedAmount :
    [small [0x0D] [] [], small [0x0C] [] [], small [0x02] [42, 0] [], small [0x01] [1] []].map
      (fun s => (wordNumber s % 8, (after (step s)).map State.run)) =
      [(5, some .running), (4, some .running), (2, some .running), (1, some .running)] := by decide
theorem witness_ExecKeepsMemoryCanonical : Memory.wf (small [0x02] [42, 0] [(3, 1)]) ∧
    ∃ t, exec (.writeMem 0) (small [0x02] [42, 0] [(3, 1)]) = .next t := by
  refine ⟨?_, _, rfl⟩
  decide

/-- A state in the middle of a run: three entries after three words. -/
def midRun : State :=
  { params := { codeCap := 12, dataCap := 16, stackDepth := some 4, dataFill := .uniform 0 }
    run := .running, ip := 9, stack := [42, 65535, 1], code := [(9, 0x02)], data := [(3, -1)]
    fault := none, freeCount := 0 }

theorem midRun_inv : Inv midRun :=
  { ipAligned := rfl
    ipInCode := by decide
    memory := by decide
    faultedIff := by decide
    record := nofun
    depthByWords := fun _ => by decide
    depthByLimit := by
      rintro _ d ⟨⟩
      decide }
theorem witness_StepKeepsInv : Inv midRun ∧ ∃ t, step midRun = .next t ∧ t.run = .running :=
  ⟨midRun_inv, _, rfl, rfl⟩
/-- The same state at a word that faults. -/
def midFault : State := { midRun with code := [(9, 0x03)] }
theorem midFault_inv : Inv midFault := { midRun_inv with memory := by decide }
theorem witness_OverflowUnreachable : Inv midFault ∧
    (∀ d, midFault.params.stackDepth = some d → midFault.params.codeCap / 3 ≤ d) ∧
    ∃ t, step midFault = .next t ∧ t.fault ≠ none := by
  refine ⟨midFault_inv, ?_, _, rfl, by decide⟩
  rintro d ⟨⟩
  decide
theorem witness_StepKeepsValuesFit : 17 ≤ 17 ∧ Inv midRun ∧ ValuesFit 17 midRun ∧
    ∃ t, step midRun = .next t :=
  ⟨by decide, midRun_inv, ⟨by decide, fun _ => by decide⟩, _, rfl⟩
theorem witness_LaunchHasInv : ∃ s, launch smallParams [0x0D, 0, 0, 0, 0, 0, 0, 0, 1] [(15, 7)] =
    .ok s := ⟨_, rfl⟩
theorem witness_RunEndsWithinBound : (small [0x0D] [] []).run = .running := rfl
theorem witness_RunIsStraightLine : ∃ t,
    Host.Core.run core 2 (small [0x0D, 0, 0, 0x15] [] []) = .next t ∧ t.run = .running :=
  ⟨_, rfl, rfl⟩
theorem witness_LaunchLoadsProgram : smallParams.codeCap < (List.replicate 10 (0 : Byte)).length ∧
    (List.replicate 9 (0 : Byte)).length ≤ smallParams.codeCap ∧
    (∀ e ∈ [(15, (7 : Int)), (15, 8)], e.1 < smallParams.dataCap) ∧
    [(15, (7 : Int)), (15, 8)] = [(15, 7)] ++ (15, 8) :: [] := by decide
theorem witness_ReadBackAfterEnd :
    (small [] [1] []).run = .running ∧ Ended (halt (small [] [1] [])) ∧
    (∃ b, readBack (halt (small [] [1] [])) = some b) ∧ StackStated (halt (small [] [1] [])) ∧
    (∃ b, readBack (raiseUnderflow 1 0 (small [] [] [])) = some b) ∧
    ¬ StackStated (raiseUnderflow 1 0 (small [] [] [])) :=
  ⟨rfl, by decide, ⟨_, rfl⟩, nofun, ⟨_, rfl⟩, fun h => h _ rfl rfl⟩
theorem witness_ExportYieldsRange : (small [] [] []).run = .running ∧
    Ended (halt (small [] [] [])) ∧ 1 < 2 ∧ 2 ≤ 2 ∧ 15 ≤ 16 := by decide

end Sys2Proof.Tests
end

/-! The reference encoder's words and bytes as numbers (spec/30_encoding.md R66). -/

namespace Sys2Proof

/-- The encoder's word as a number (R66): the tag, and from bit 3 up the operand modulo
`2 ^ width`. The mask leaves at most 14 bits, so the packing carries nothing out of the word. -/
theorem encodeWord_toNat (op : Opcode) (v : Nat) :
    (encodeWord op v).toNat = op.tag.toNat + 8 * (v % 2 ^ op.width) := by
  have fits : v &&& mask op.width < 2 ^ 21 := (masked_lt op v).trans (by decide)
  rw [encodeWord, packWord_toNat op.tag fits, and_mask]

/-- The bytes of a word are its digits to base 256, the lowest first (R10, R66). -/
theorem wordBytes_map_toNat (w : InstrWord) :
    (wordBytes w).map BitVec.toNat = [w.toNat % 256, w.toNat / 256 % 256, w.toNat / 65536] := by
  have high : w.toNat / 65536 % 256 = w.toNat / 65536 := Nat.mod_eq_of_lt (by omega)
  simp [wordBytes, BitVec.extractLsb'_toNat, Nat.shiftRight_eq_div_pow, high]

/-- Settles O4: R64's tag and R65's width of each opcode put into `encodeWord_toNat`; the byte order
is that of any word. -/
theorem encoderWordLayout : Obligations.EncoderWordLayout := fun v =>
  ⟨encodeWord_toNat .loadConst v, encodeWord_toNat .readMem v, encodeWord_toNat .writeMem v,
    encodeWord_toNat .lessOrEq v, fun op => wordBytes_map_toNat (encodeWord op v)⟩

end Sys2Proof

/-! One step from a Running state, by its phases (spec/40_cycle.md R80, R81, R83). -/

namespace Sys2Proof.Machine

/-! ### What a step answers in each phase (R88) -/

/-- Phase 1, the code-end check (R81). -/
theorem step_of_codeEnd {s : State} (hr : s.run = .running) (hc : s.params.codeCap < s.ip + 3) :
    step s = .next (halt s) := by
  simp [step, hr, codeEnd_iff.mpr hc]

/-- Phases 2 and 4: a word inside code memory that decodes to an instruction runs it (R82, R85). -/
theorem step_of_decoded {s : State} {i : Instr} (hr : s.run = .running)
    (hc : s.ip + 3 ≤ s.params.codeCap) (hi : decodeWord (fetchWord s) = .ok i) :
    step s = exec i s := by
  simp [step, hr, codeEnd_eq_false.mpr hc, hi]

/-- Phase 3b: a word inside code memory that decodes to no instruction (R84). -/
theorem step_of_unknownOpcode {s : State} {u : UnknownOpcode} (hr : s.run = .running)
    (hc : s.ip + 3 ≤ s.params.codeCap) (hu : decodeWord (fetchWord s) = .error u) :
    step s = .next (raiseUnknownOpcode u s) := by
  simp [step, hr, codeEnd_eq_false.mpr hc, hu]

/-- While Running there is always a next state. -/
theorem step_next_of_running {s : State} (hr : s.run = .running) : ∃ t, step s = .next t := by
  rcases Nat.lt_or_ge s.params.codeCap (s.ip + 3) with hc | hc
  · exact ⟨_, step_of_codeEnd hr hc⟩
  · cases hd : decodeWord (fetchWord s) with
    | ok i =>
      rw [step_of_decoded hr hc hd]
      exact exec_next i s
    | error u => exact ⟨_, step_of_unknownOpcode hr hc hd⟩

/-- Settles O15: a step that answers a next state was taken while Running (`step_cases`), and every
phase that a step from Running can end in answers one. -/
theorem stepEnabledExactlyWhileRunning : Obligations.StepEnabledExactlyWhileRunning :=
  fun _ => ⟨fun ⟨_, h⟩ => (step_cases h).1, step_next_of_running⟩

/-! ### The sentinel -/

theorem exec_sentinel (s : State) : exec .sentinel s = .next (halt s) := rfl

/-- The word of value 0 at `ip` decodes to the sentinel (R67). -/
theorem decodeWord_fetchWord_of_zero {s : State} (h : wordNumber s = 0) :
    decodeWord (fetchWord s) = .ok .sentinel := by
  have h0 : fetchWord s = 0 := BitVec.eq_of_toNat_eq ((fetchWord_toNat s).trans h)
  rw [h0]
  rfl

/-- Settles O13: as a step, the zero word decodes to the sentinel, and that step is the
instruction. -/
theorem sentinelHalts : Obligations.SentinelHalts :=
  ⟨exec_sentinel, fun s hr hc h0 =>
    (step_of_decoded hr hc (decodeWord_fetchWord_of_zero h0)).trans (exec_sentinel s)⟩

/-! ### The same state over another code memory

No handler reads code memory: each operation, and so each meaning, commutes with replacing it. The
bytes of the fetched word are all that a step takes from it (R42, R82). -/

/-- The state with another code memory. -/
def withCode (c : List Host.Cell) (s : State) : State := { s with code := c }

/-- The result of an operation over another code memory: the state of a fault has its code memory
replaced, and `g` replaces it in what the operation answers. -/
def resultWithCode {α : Type} (c : List Host.Cell) (g : α → α) : Except State α → Except State α
  | .ok a => .ok (g a)
  | .error s => .error (withCode c s)

section
variable (c : List Host.Cell) (op : Opcode) (n : Nat) (s : State)

theorem push_withCode (v : Int) :
    push op n v (withCode c s) = resultWithCode c (withCode c) (push op n v s) := by
  rcases push_cases op n v s with ⟨hf, e⟩ | ⟨hf, e⟩ <;> rw [e]
  · exact push_of_room (s := withCode c s) hf op n v
  · exact push_of_full (s := withCode c s) hf op n v

theorem popOne_withCode :
    popOne op n (withCode c s) =
      resultWithCode c (fun (v, t) => (v, withCode c t)) (popOne op n s) := by
  rcases popOne_cases op n s with ⟨hs, e⟩ | ⟨rest, v, hs, e⟩ <;> rw [e]
  · exact popOne_of_empty (s := withCode c s) hs op n
  · exact popOne_of_append (s := withCode c s) hs op n

theorem popTwo_withCode :
    popTwo op n (withCode c s) =
      resultWithCode c (fun (a, v, t) => (a, v, withCode c t)) (popTwo op n s) := by
  rcases popTwo_cases op n s with ⟨hd, e⟩ | ⟨rest, v, a, hs, e⟩ <;> rw [e]
  · exact popTwo_of_short (s := withCode c s) hd op n
  · exact popTwo_of_append (s := withCode c s) hs op n

theorem loadCell_withCode (a : Int) :
    loadCell op n a (withCode c s) = resultWithCode c id (loadCell op n a s) := by
  rcases loadCell_cases op n a s with ⟨ht, e⟩ | ⟨k, ht, e⟩ <;> rw [e]
  · exact loadCell_of_none (s := withCode c s) ht op n
  · exact loadCell_of_cell (s := withCode c s) ht op n

theorem storeCell_withCode (a v : Int) :
    storeCell op n a v (withCode c s) = resultWithCode c (withCode c) (storeCell op n a v s) := by
  rcases storeCell_cases op n a v s with ⟨ht, e⟩ | ⟨k, ht, e⟩ <;> rw [e]
  · exact storeCell_of_none (s := withCode c s) ht op n v
  · exact storeCell_of_cell (s := withCode c s) ht op n v

end

/-- One operation after another over another code memory. -/
theorem bind_withCode {α β : Type} {c : List Host.Cell} {g : α → α} {g' : β → β}
    {x x' : Except State α} {f f' : α → Except State β} (hx : x' = resultWithCode c g x)
    (hf : ∀ a, f' (g a) = resultWithCode c g' (f a)) :
    (x' >>= f') = resultWithCode c g' (x >>= f) := by
  subst hx
  cases x with
  | ok a => exact hf a
  | error s => rfl

/-- A handler's end over another code memory. -/
theorem finish_withCode {c : List Host.Cell} {r r' : Except State State} {t : State}
    (hr : r' = resultWithCode c (withCode c) r) (h : finish r = .next t) :
    finish r' = .next (withCode c t) := by
  subst hr
  rcases finish_cases h with ⟨s, rfl, rfl⟩ | rfl <;> rfl

/-- An instruction does the same over another code memory. -/
theorem exec_withCode {i : Instr} {s t : State} (c : List Host.Cell) (h : exec i s = .next t) :
    exec i (withCode c s) = .next (withCode c t) := by
  cases i with
  | loadConst n => exact finish_withCode (push_withCode c _ n s _) h
  | readMem n =>
    exact finish_withCode (bind_withCode (loadCell_withCode c _ n s _) fun v =>
      push_withCode c _ n s v) h
  | writeMem n =>
    exact finish_withCode (bind_withCode (popTwo_withCode c _ n s) fun (a, v, s1) =>
      storeCell_withCode c _ n s1 a v) h
  | lessOrEq n =>
    exact finish_withCode (bind_withCode (popOne_withCode c _ n s) fun (_, s1) =>
      bind_withCode (loadCell_withCode c _ n s1 _) fun _ => push_withCode c _ n s1 _) h
  | sentinel =>
    obtain rfl : halt s = t := by simpa [exec_sentinel] using h
    rfl

/-- A step does the same over another code memory that holds the same word at `ip`, and over any
other where it fetches none. -/
theorem step_withCode {s t : State} {c : List Host.Cell}
    (hw : s.ip + 3 ≤ s.params.codeCap → fetchWord (withCode c s) = fetchWord s)
    (h : step s = .next t) : step (withCode c s) = .next (withCode c t) := by
  obtain ⟨hr, ⟨he, rfl⟩ | ⟨he, i, hi, hx⟩ | ⟨he, u, hu, rfl⟩⟩ := step_cases h
  · exact step_of_codeEnd (s := withCode c s) hr (codeEnd_iff.mp he)
  · have hc := codeEnd_eq_false.mp he
    have hi' : decodeWord (fetchWord (withCode c s)) = .ok i := (hw hc).symm ▸ hi
    exact (step_of_decoded (s := withCode c s) hr hc hi').trans (exec_withCode c hx)
  · have hc := codeEnd_eq_false.mp he
    have hu' : decodeWord (fetchWord (withCode c s)) = .error u := (hw hc).symm ▸ hu
    exact step_of_unknownOpcode (s := withCode c s) hr hc hu'

/-- The fetched word is a function of the three bytes at `ip` (R42). -/
theorem fetchWord_withCode {s : State} {c : List Host.Cell}
    (h : ∀ k, k < 3 → codeByte (withCode c s) (s.ip + k) = codeByte s (s.ip + k)) :
    fetchWord (withCode c s) = fetchWord s := by
  have h0 : codeByte (withCode c s) s.ip = codeByte s s.ip := h 0 (by decide)
  have h1 := h 1 (by decide)
  have h2 := h 2 (by decide)
  unfold fetchWord
  rw [← h0, ← h1, ← h2]
  rfl

/-- Settles O12: the strictness clause is `step_of_decoded` at `ip + 3 = CODE_CAP`; for the last
clause, a step that fetches does so inside code memory, so all three bytes it reads lie below
CODE_CAP. -/
theorem codeEndHalts : Obligations.CodeEndHalts := by
  intro s hr
  refine ⟨step_of_codeEnd hr, fun hc i hi => step_of_decoded hr hc.le hi, ?_⟩
  intro t code' hsame
  exact step_withCode fun hc => fetchWord_withCode fun k hk => hsame (s.ip + k) (by omega)

end Sys2Proof.Machine

/-! The decoder's verdicts and the round trips of both encoders (spec/30_encoding.md). -/

namespace Sys2Proof

open Machine

/-! ### The decoder on words and on bytes -/

/-- A byte string that starts with a word which decodes (R60). -/
theorem decode_wordBytes_of_ok {w : InstrWord} {i : Instr} (h : decodeWord w = .ok i)
    (rest : List Byte) : decode (wordBytes w ++ rest) = .ok (i, rest) := by
  rw [decode_wordBytes, h]

/-- The decoder on three bytes is the decoder on their word. -/
theorem decode_cons3_of_ok {b0 b1 b2 : Byte} {i : Instr} (h : decodeWord (le3 b0 b1 b2) = .ok i)
    (rest : List Byte) : decode (b0 :: b1 :: b2 :: rest) = .ok (i, rest) := by
  simp only [decode, h]

theorem decode_cons3_of_error {b0 b1 b2 : Byte} {u : UnknownOpcode}
    (h : decodeWord (le3 b0 b1 b2) = .error u) (rest : List Byte) :
    decode (b0 :: b1 :: b2 :: rest) = .error (.unknownOpcode u) := by
  simp only [decode, h]

theorem le3_toNat_eq_bytesNumber (b0 b1 b2 : Byte) :
    (le3 b0 b1 b2).toNat = bytesNumber b0 b1 b2 := le3_toNat b0 b1 b2

/-- The tag field is the word's value modulo 8 (R62). -/
theorem tagField_eq_ofNat (w : InstrWord) : tagField w = BitVec.ofNat 3 (w.toNat % 8) := by
  apply BitVec.eq_of_toNat_eq
  rw [tagField_toNat, BitVec.toNat_ofNat]
  omega

/-- A word whose value has an opcode's tag decodes to that opcode (R69). -/
theorem decodeWord_of_toNat_mod {w : InstrWord} {op : Opcode} (h : w.toNat % 8 = op.tag.toNat) :
    decodeWord w = .ok (op.instr (w.toNat / 8 % 65536)) := by
  have htag : tagField w = op.tag := BitVec.eq_of_toNat_eq ((tagField_toNat w).trans h)
  rw [decodeWord_of_tag htag, opndField_eq]

/-- A non-zero word whose tag is no opcode's is refused with its fields (R68, D3). -/
theorem decodeWord_of_unknownTag {w : InstrWord} (h0 : w ≠ 0)
    (ht : w.toNat % 8 ∈ [0, 3, 6, 7]) :
    decodeWord w =
      .error { tag := BitVec.ofNat 3 (w.toNat % 8), opnd := w.toNat / 8 % 65536 } := by
  have hnone : opcodeOfTag (tagField w) = none := by
    rw [← tagField_toNat] at ht
    generalize tagField w = g at ht
    revert g
    decide
  rw [decodeWord, if_neg h0, hnone, tagField_eq_ofNat, opndField_eq]

/-- Two non-zero words with the same fields get the same verdict: the fields are all that the
decoder looks at after the sentinel test. -/
theorem decodeWord_congr {w w' : InstrWord} (h0 : w ≠ 0) (h0' : w' ≠ 0)
    (htag : tagField w = tagField w') (hopnd : opndField w = opndField w') :
    decodeWord w = decodeWord w' := by
  rw [decodeWord, decodeWord, if_neg h0, if_neg h0', htag, hopnd]

/-! ### The encoders -/

/-- A packed opcode and 16-bit operand decode to the instruction (R63, R69). -/
theorem decodeWord_packWord (op : Opcode) {n : Nat} (h : n < 65536) :
    decodeWord (packWord op.tag n) = .ok (op.instr n) := by
  rw [decodeWord_of_tag (tagField_packWord op.tag h), opndField_packWord op.tag h]

theorem decodeWord_encodeWord (op : Opcode) (v : Nat) :
    decodeWord (encodeWord op v) = .ok (op.instr (v % 2 ^ op.width)) := by
  rw [encodeWord, decodeWord_packWord op ((masked_lt op v).trans (by decide)), and_mask]

theorem decode_encodeOp (op : Opcode) (v : Nat) (rest : List Byte) :
    decode (encodeOp op v ++ rest) = .ok (op.instr (v % 2 ^ op.width), rest) :=
  decode_wordBytes_of_ok (decodeWord_encodeWord op v) rest

/-- The reference encoder never writes the sentinel's word, because no opcode has the tag 0. -/
theorem encodeWord_ne_zero (op : Opcode) (v : Nat) : encodeWord op v ≠ 0 := by
  intro h
  have hsum := encodeWord_toNat op v
  rw [h, show (0 : InstrWord).toNat = 0 from rfl] at hsum
  exact tag_ne_zero op (BitVec.eq_of_toNat_eq (show op.tag.toNat = 0 by omega))

/-- Every instruction is the sentinel or an opcode with its operand (R64, R67). -/
theorem Instr.eq_sentinel_or_instr (i : Instr) :
    i = .sentinel ∨ ∃ (op : Opcode) (n : Nat), i = op.instr n := by
  cases i with
  | loadConst n => exact .inr ⟨.loadConst, n, rfl⟩
  | readMem n => exact .inr ⟨.readMem, n, rfl⟩
  | writeMem n => exact .inr ⟨.writeMem, n, rfl⟩
  | lessOrEq n => exact .inr ⟨.lessOrEq, n, rfl⟩
  | sentinel => exact .inl rfl

theorem wf_instr (op : Opcode) (n : Nat) : (op.instr n).wf = decide (n < 65536) := by
  cases op <;> rfl

theorem verbatimWord_instr (op : Opcode) (n : Nat) :
    verbatimWord (op.instr n) = packWord op.tag (n % 65536) := by
  cases op <;> rfl

/-- A well-formed instruction comes back from its whole-operand word (R69). -/
theorem decodeWord_verbatimWord {i : Instr} (h : i.wf = true) :
    decodeWord (verbatimWord i) = .ok i := by
  rcases i.eq_sentinel_or_instr with rfl | ⟨op, n, rfl⟩
  · rfl
  · have hn : n < 65536 := by simpa [wf_instr] using h
    rw [verbatimWord_instr, Nat.mod_eq_of_lt hn, decodeWord_packWord op hn]

/-! ### The obligations -/

/-- Settles O5: the masked operand fits the 16-bit field the decoder exposes, and inside the width
the mask changes nothing. -/
theorem referenceEncoderRoundTrip : Obligations.ReferenceEncoderRoundTrip := by
  intro op v rest
  refine ⟨fun hv => ?_, decode_encodeOp op v rest, encodeWord_ne_zero op v⟩
  rw [decode_encodeOp, Nat.mod_eq_of_lt hv]

/-- Settles O6. -/
theorem wholeOperandRoundTrip : Obligations.WholeOperandRoundTrip :=
  fun _ rest h => decode_wordBytes_of_ok (decodeWord_verbatimWord h) rest

/-- Settles O7: tag and operand field are the word's low 19 bits, `w % 8 + 8 * (w / 8 % 65536)`. -/
theorem decodedWordIsRecovered : Obligations.DecodedWordIsRecovered := by
  intro w i h
  rcases decodeWord_cases w with ⟨rfl, e⟩ | ⟨-, op, htag, e⟩ | ⟨-, -, e⟩ <;> rw [e] at h <;> cases h
  · exact ⟨rfl, rfl⟩
  · have hlt := opndField_lt w
    refine ⟨by simpa [wf_instr] using hlt, ?_⟩
    rw [verbatimWord_instr, Nat.mod_eq_of_lt hlt, packWord_toNat _ (by omega), ← htag,
      tagField_toNat, opndField_eq]
    omega

/-- Settles O8: both fields lie below bit 19. -/
theorem highBitsIgnored : Obligations.HighBitsIgnored := by
  intro w w' h0 h0' hlow
  refine decodeWord_congr h0 h0' (BitVec.eq_of_toNat_eq ?_) ?_
  · rw [tagField_toNat, tagField_toNat]
    omega
  · rw [opndField_eq, opndField_eq]
    omega

/-- Settles O2: one clause for each opcode's tag, by `decodeWord_of_toNat_mod`, one for the zero
word and one for the four tags of no opcode. -/
theorem decoderVerdicts : Obligations.DecoderVerdicts := by
  intro b0 b1 b2 rest
  have known : ∀ op : Opcode, bytesNumber b0 b1 b2 % 8 = op.tag.toNat →
      decode (b0 :: b1 :: b2 :: rest) =
        .ok (op.instr (bytesNumber b0 b1 b2 / 8 % 65536), rest) := by
    intro op ht
    rw [← le3_toNat_eq_bytesNumber] at ht ⊢
    exact decode_cons3_of_ok (decodeWord_of_toNat_mod ht) rest
  refine ⟨fun h => ?_, known .loadConst, known .readMem, known .writeMem, known .lessOrEq,
    fun h0 ht => ?_⟩
  · rw [← le3_toNat_eq_bytesNumber] at h
    have hzero : le3 b0 b1 b2 = 0 := BitVec.eq_of_toNat_eq h
    exact decode_cons3_of_ok (by rw [hzero]; rfl) rest
  · rw [← le3_toNat_eq_bytesNumber] at h0 ht ⊢
    have hne : le3 b0 b1 b2 ≠ 0 := fun e => h0 (by rw [e]; rfl)
    exact decode_cons3_of_error (decodeWord_of_unknownTag hne ht) rest

/-- Settles O3: a string of 3 bytes or more has a word, and no verdict on a word is `truncated`. -/
theorem shortBytesTruncated : Obligations.ShortBytesTruncated := by
  intro bytes
  match bytes with
  | [] | [_] | [_, _] => simp [decode]
  | b0 :: b1 :: b2 :: rest =>
    refine iff_of_false (by simp) ?_
    cases hd : decodeWord (le3 b0 b1 b2) with
    | ok i => simp [decode_cons3_of_ok hd]
    | error u => simp [decode_cons3_of_error hd]

/-- Settles O1, by evaluation of the decoder on the seven words. -/
theorem sampleWordsDecode : Obligations.SampleWordsDecode :=
  ⟨rfl, rfl, rfl, rfl, rfl, rfl, rfl⟩

end Sys2Proof

/-! Assembled programs (spec/30_encoding.md R74, R75). -/

namespace Sys2Proof.Machine

theorem encodeOp_length (op : Opcode) (v : Nat) : (encodeOp op v).length = 3 := rfl

/-- The mnemonics are the four of R74. -/
theorem opcodeOfMnemonic_eq_none {m : String} :
    opcodeOfMnemonic m = none ↔ m ∉ ["load_const", "read_mem", "write_mem", "less_or_eq"] := by
  unfold opcodeOfMnemonic
  split_ifs <;> simp [*]

/-- What assembling one record and the rest can do (R74, R75, D24). -/
theorem assemble_cons_cases (m : String) (v : Int) (rest : List (String × Int)) :
    ((opcodeOfMnemonic m = none ∨ v < 0) ∧ ∃ e, assemble ((m, v) :: rest) = .error e) ∨
      ∃ op, opcodeOfMnemonic m = some op ∧ 0 ≤ v ∧
        ((∃ e, assemble rest = .error e ∧ assemble ((m, v) :: rest) = .error e) ∨
          ∃ bytes, assemble rest = .ok bytes ∧
            assemble ((m, v) :: rest) = .ok (encodeOp op v.toNat ++ bytes)) := by
  cases hm : opcodeOfMnemonic m with
  | none => exact .inl ⟨.inl rfl, _, by simp only [assemble, hm]; rfl⟩
  | some op =>
    by_cases hv : v < 0
    · exact .inl ⟨.inr hv, _, by simp only [assemble, hm, if_pos hv]; rfl⟩
    · refine .inr ⟨op, rfl, by omega, ?_⟩
      cases hr : assemble rest with
      | error e => exact .inl ⟨e, rfl, by simp only [assemble, hm, if_neg hv, hr]⟩
      | ok bytes => exact .inr ⟨bytes, rfl, by simp only [assemble, hm, if_neg hv, hr]⟩

/-- An assembled program is its first record's word, then the assembled rest. -/
theorem assemble_cons_ok {m : String} {v : Int} {rest : List (String × Int)} {bytes : List Byte}
    (h : assemble ((m, v) :: rest) = .ok bytes) :
    ∃ op tail, opcodeOfMnemonic m = some op ∧ 0 ≤ v ∧ assemble rest = .ok tail ∧
      bytes = encodeOp op v.toNat ++ tail := by
  rcases assemble_cons_cases m v rest with
    ⟨-, e, he⟩ | ⟨op, hm, hv, ⟨e, -, he⟩ | ⟨tail, ht, he⟩⟩ <;> rw [he] at h <;> cases h
  exact ⟨op, tail, hm, hv, ht, rfl⟩

/-- Beyond the first word of a program is what follows it. -/
theorem drop_encodeOp_append (op : Opcode) (v k : Nat) (tail : List Byte) :
    (encodeOp op v ++ tail).drop (3 * (k + 1)) = tail.drop (3 * k) := by
  rw [show 3 * (k + 1) = (encodeOp op v).length + 3 * k by rw [encodeOp_length]; omega,
    List.drop_length_add_append]

/-- Settles O9, by induction on the records: word 0 is the first record's reference encoding, and
word `k + 1` is word `k` of the rest. -/
theorem assembledProgramDecodes : Obligations.AssembledProgramDecodes := by
  intro records
  induction records with
  | nil =>
    intro bytes h
    obtain rfl : [] = bytes := by simpa [assemble] using h
    exact ⟨rfl, by simp⟩
  | cons r records ih =>
    intro bytes h
    obtain ⟨op, tail, hop, hv, ht, rfl⟩ := assemble_cons_ok h
    obtain ⟨hlen, hwords⟩ := ih tail ht
    refine ⟨by simp only [List.length_append, encodeOp_length, List.length_cons, hlen]; omega, ?_⟩
    intro k m v hk
    cases k with
    | zero =>
      obtain rfl : r = (m, v) := by simpa using hk
      refine ⟨op, hop, hv, ?_⟩
      rw [drop_encodeOp_append]
      exact decode_encodeOp op v.toNat tail
    | succ k =>
      rw [drop_encodeOp_append, drop_encodeOp_append]
      exact hwords k m v hk

/-- Settles O10, by induction on the records: a record is refused for one of the two reasons, or the
rest is. -/
theorem assemblerRefusesExactly : Obligations.AssemblerRefusesExactly := by
  intro records
  induction records with
  | nil => simp [assemble]
  | cons r records ih =>
    obtain ⟨m, v⟩ := r
    rw [List.exists_mem_cons_iff, ← ih, ← opcodeOfMnemonic_eq_none]
    rcases assemble_cons_cases m v records with
      ⟨hbad, herr⟩ | ⟨op, hm, hv, ⟨e, hr, he⟩ | ⟨bytes, hr, he⟩⟩
    · exact iff_of_true herr (.inl hbad)
    · exact iff_of_true ⟨e, he⟩ (.inr ⟨e, hr⟩)
    · simp [hm, hr, he, hv]

end Sys2Proof.Machine

/-! What every step keeps: the invariant of a run (spec/10_state.md sections 3, 5 and 6) and the
width of the values (spec/92_eei_decisions.md D10). -/

namespace Sys2Proof.Machine

/-! ### What no step changes -/

theorem StepCase.params_eq {s t : State} (h : StepCase s t) : t.params = s.params := by
  cases h <;> rfl

theorem StepCase.code_eq {s t : State} (h : StepCase s t) : t.code = s.code := by
  cases h <;> rfl

/-! ### The stack's depth around a pop -/

theorem depth_of_append {s : State} {rest top : List Int} (hs : s.stack = rest ++ top) :
    depth s = rest.length + top.length := by
  rw [depth, hs, List.length_append]

/-- A pop leaves room for the push after it, on a stack within its finite depth. -/
theorem stackFull_setStack_of_popped {s : State} {rest : List Int} {v : Int}
    (hs : s.stack = rest ++ [v]) (hw : WithinDepth s) : stackFull (setStack rest s) = false := by
  refine stackFull_eq_false.mpr fun d hd => ?_
  have hle := hw d hd
  rw [depth_of_append hs] at hle
  exact hle

/-! ### The invariant after each end of a step -/

section
variable {s : State} (hs : Inv s) (hr : s.run = .running)
include hs hr

theorem Inv.fault_eq_none : s.fault = none := by
  by_contra h
  have := hs.faultedIff.mpr h
  simp [hr] at this

theorem Inv.stackStated : StackStated s := by
  intro r h
  rw [hs.fault_eq_none hr] at h
  cases h

theorem Inv.three_mul_depth_le : 3 * depth s ≤ s.ip := hs.depthByWords (hs.stackStated hr)

theorem Inv.withinDepth : WithinDepth s := hs.depthByLimit (hs.stackStated hr)

theorem Inv.halt : Inv (halt s) :=
  { ipAligned := hs.ipAligned
    ipInCode := hs.ipInCode
    memory := hs.memory
    faultedIff := by simp [hs.fault_eq_none hr]
    record := hs.record
    depthByWords := hs.depthByWords
    depthByLimit := hs.depthByLimit }

/-- A fault that leaves a stated stack of at most the old depth. -/
theorem Inv.raise {k : FaultKind} {tag : Tag} {n : Nat} {a : Option Int} {st : List Int}
    (hst : st.length ≤ depth s) (hn : n < 65536) (ha : a ≠ none ↔ OutOfBounds k) :
    Inv (raise k tag n a (setStack st s)) :=
  { ipAligned := hs.ipAligned
    ipInCode := hs.ipInCode
    memory := hs.memory
    faultedIff := iff_of_true rfl (by simp)
    record := by
      rintro _ ⟨⟩
      exact ⟨rfl, hn, ha⟩
    depthByWords := fun _ => (Nat.mul_le_mul_left 3 hst).trans (hs.three_mul_depth_le hr)
    depthByLimit := fun _ d hd => hst.trans (hs.withinDepth hr d hd) }

omit hr in
/-- `StackUnderflow` leaves the stack unspecified, so nothing is claimed of its depth (R96). -/
theorem Inv.raiseUnderflow {tag : Tag} {n : Nat} (hn : n < 65536) :
    Inv (raiseUnderflow tag n s) :=
  { ipAligned := hs.ipAligned
    ipInCode := hs.ipInCode
    memory := hs.memory
    faultedIff := iff_of_true rfl (by simp)
    record := by
      rintro _ ⟨⟩
      exact ⟨rfl, hn, by simp [OutOfBounds]⟩
    depthByWords := fun h => absurd rfl (h _ rfl)
    depthByLimit := fun h => absurd rfl (h _ rfl) }

/-- A completed handler whose stack is at most one entry deeper. -/
theorem Inv.advance {st : List Int} (hc : s.ip + 3 ≤ s.params.codeCap)
    (hst : st.length ≤ depth s + 1) (hl : WithinDepth (setStack st s)) :
    Inv (advance (setStack st s)) :=
  { ipAligned := (Nat.add_mod_right s.ip 3).trans hs.ipAligned
    ipInCode := hc
    memory := hs.memory
    faultedIff := hs.faultedIff
    record := by
      intro r h
      rw [advance_fault, setStack_fault, hs.fault_eq_none hr] at h
      cases h
    depthByWords := fun _ => by
      have := hs.three_mul_depth_le hr
      show 3 * st.length ≤ s.ip + 3
      omega
    depthByLimit := fun _ => hl }

/-- A push on a stack with room. -/
theorem Inv.advance_push {st : List Int} {v : Int} (hc : s.ip + 3 ≤ s.params.codeCap)
    (hst : st.length ≤ depth s) (hf : stackFull (setStack st s) = false) :
    Inv (Machine.advance (setStack (st ++ [v]) s)) := by
  refine hs.advance hr hc (by simpa using hst) fun d hd => ?_
  have := stackFull_eq_false.mp hf d hd
  simpa using this

end

theorem Inv.setDataCell {s : State} (hs : Inv s) {c : Nat} (v : Int) (hc : c < s.params.dataCap) :
    Inv (setDataCell c v s) :=
  { hs with memory := setDataCell_wf v hs.memory hc }

/-- Settles O42: every way a step ends (`StepCase`) is one of the ends above. The stack a LessOrEq
pushes on, and the one a WriteMem leaves, are shorter than the old one. -/
theorem stepKeepsInv : Obligations.StepKeepsInv := by
  intro s t hs h
  obtain ⟨hr, hcase⟩ := step_case h
  have hn : wordNumber s / 8 % 65536 < 65536 := Nat.mod_lt _ (by decide)
  cases hcase with
  | halt => exact hs.halt hr
  | unknownOpcode hc h0 ht u htag hopnd =>
    exact hs.raise hr (st := s.stack) le_rfl (hopnd ▸ hn) (by simp [OutOfBounds])
  | loadConst hc ht hf => exact hs.advance_push hr hc le_rfl hf
  | readMem hc ht hb hf => exact hs.advance_push hr hc le_rfl hf
  | loadConstFull | readMemFull | readMemOut =>
    exact hs.raise hr (st := s.stack) le_rfl hn (by simp [OutOfBounds])
  | writeMem hc ht rest v a c hst hb =>
    have hlen : rest.length ≤ depth s := by rw [depth_of_append hst]; omega
    have hpop : Inv (advance (setStack rest s)) := hs.advance hr hc (Nat.le_succ_of_le hlen)
      fun d hd => hlen.trans (hs.withinDepth hr d hd)
    exact hpop.setDataCell v (translate_eq_some.mp hb).2
  | writeMemOut hc ht rest v a hst hb =>
    exact hs.raise hr (by rw [depth_of_append hst]; omega) hn (by simp [OutOfBounds])
  | writeMemShort => exact hs.raiseUnderflow hn
  | lessOrEq hc ht rest right hst hb hf =>
    exact hs.advance_push hr hc (by rw [depth_of_append hst]; omega) hf
  | lessOrEqFull hc ht rest right hst hb hf =>
    exact hs.raise hr (by rw [depth_of_append hst]; omega) hn (by simp [OutOfBounds])
  | lessOrEqOut hc ht rest right hst hb =>
    exact hs.raise hr (by rw [depth_of_append hst]; omega) hn (by simp [OutOfBounds])
  | lessOrEqEmpty => exact hs.raiseUnderflow hn

/-! ### The values a step can produce -/

/-- The comparison answers 0 or 1 (R115). -/
theorem comparison_bounds (left right : Int) :
    0 ≤ comparison left right ∧ comparison left right < 65536 := by
  unfold comparison
  split <;> decide

/-- A step computes no new value for a data cell: it moves one there from the stack. -/
theorem StepCase.dataCell_eq_or_mem {s t : State} (h : StepCase s t) (a : Nat) :
    dataCell t a = dataCell s a ∨ dataCell t a ∈ s.stack := by
  cases h with
  | writeMem hc ht rest v b c hs hb =>
    rw [dataCell_advance]
    by_cases hac : a = c
    · subst hac
      exact .inr (by simp [hs])
    · exact .inl (by rw [dataCell_setDataCell_ne hac, dataCell_setStack])
  | _ => exact .inl rfl

/-- What a step can leave on a stack the spec states: an entry that was there, a cell of data
memory, or an operand or comparison below 65536. -/
theorem StepCase.stack_value {s t : State} (h : StepCase s t) (hst : StackStated t) {x : Int}
    (hx : x ∈ t.stack) :
    x ∈ s.stack ∨ (∃ a, a < s.params.dataCap ∧ x = dataCell s a) ∨ (0 ≤ x ∧ x < 65536) := by
  cases h with
  | halt | unknownOpcode | loadConstFull | readMemFull | readMemOut => exact .inl hx
  | loadConst =>
    rcases List.mem_append.mp hx with hx | hx
    · exact .inl hx
    · obtain rfl := List.mem_singleton.mp hx
      exact .inr (.inr (by omega))
  | readMem hc ht hb hf =>
    rcases List.mem_append.mp hx with hx | hx
    · exact .inl hx
    · exact .inr (.inl ⟨_, hb, List.mem_singleton.mp hx⟩)
  | writeMem hc ht rest v a c hs => exact .inl (hs ▸ List.mem_append_left _ hx)
  | writeMemOut hc ht rest v a hs => exact .inl (hs ▸ List.mem_append_left _ hx)
  | lessOrEq hc ht rest right hs =>
    rcases List.mem_append.mp hx with hx | hx
    · exact .inl (hs ▸ List.mem_append_left _ hx)
    · obtain rfl := List.mem_singleton.mp hx
      exact .inr (.inr (comparison_bounds _ _))
  | lessOrEqFull hc ht rest right hs => exact .inl (hs ▸ List.mem_append_left _ hx)
  | lessOrEqOut hc ht rest right hs => exact .inl (hs ▸ List.mem_append_left _ hx)
  | writeMemShort | lessOrEqEmpty => exact absurd rfl (hst _ rfl)

/-- 16-bit values without a sign fit 17 signed bits. -/
theorem fitsBits_of_lt {bits : Nat} (hb : 17 ≤ bits) {v : Int} (h0 : 0 ≤ v) (hv : v < 65536) :
    FitsBits bits v := by
  have hpow : (2 : Int) ^ 16 ≤ 2 ^ (bits - 1) := pow_le_pow_right₀ (by decide) (by omega)
  exact ⟨by omega, by omega⟩

/-- Settles O45: a step moves values between the stack and data memory, and what it adds is an
operand or a comparison, which 17 bits hold. -/
theorem stepKeepsValuesFit : Obligations.StepKeepsValuesFit := by
  intro bits s t hb hs hfit h
  obtain ⟨hr, hcase⟩ := step_case h
  obtain ⟨hcells, hstack⟩ := hfit
  have hstack := hstack (hs.stackStated hr)
  refine ⟨fun a ha => ?_, fun hst x hx => ?_⟩
  · rcases hcase.dataCell_eq_or_mem a with he | hm
    · exact he ▸ hcells a (hcase.params_eq ▸ ha)
    · exact hstack _ hm
  · rcases hcase.stack_value hst hx with hm | ⟨a, ha, rfl⟩ | ⟨h0, hlt⟩
    · exact hstack _ hm
    · exact hcells a ha
    · exact fitsBits_of_lt hb h0 hlt

end Sys2Proof.Machine

/-! The four handlers: an equation for each way one ends (spec/41_stack.md, 42_memory_ops.md,
43_compare.md), and what each leaves unchanged. -/

namespace Sys2Proof.Machine

/-! ### One equation for each end of a handler -/

/-- The operand as a cell address outside data memory (R48, R123). -/
theorem loadCell_operand_of_le {s : State} {n : Nat} (hn : s.params.dataCap ≤ n) (op : Opcode) :
    loadCell op n (n : Int) s = .error (raise .outOfBoundsRead op.tag n (some (n : Int)) s) :=
  loadCell_of_none (translate_immediate_of_le hn) op n

section
variable {s : State} (n : Nat)

theorem exec_loadConst_of_room (hf : stackFull s = false) :
    exec (.loadConst n) s = .next (advance (setStack (s.stack ++ [(n : Int)]) s)) :=
  congrArg finish (push_of_room hf .loadConst n n)

theorem exec_loadConst_of_full (hf : stackFull s = true) :
    exec (.loadConst n) s = .next (raise .stackOverflow Opcode.loadConst.tag n none s) :=
  congrArg finish (push_of_full hf .loadConst n n)

theorem exec_readMem_of_room (hn : n < s.params.dataCap) (hf : stackFull s = false) :
    exec (.readMem n) s = .next (advance (setStack (s.stack ++ [dataCell s n]) s)) := by
  simp only [exec, execReadMem, bind, Except.bind, loadCell_of_cell (translate_immediate_of_lt hn),
    push_of_room hf, finish_ok]

theorem exec_readMem_of_full (hn : n < s.params.dataCap) (hf : stackFull s = true) :
    exec (.readMem n) s = .next (raise .stackOverflow Opcode.readMem.tag n none s) := by
  simp only [exec, execReadMem, bind, Except.bind, loadCell_of_cell (translate_immediate_of_lt hn),
    push_of_full hf, finish_error]

theorem exec_readMem_of_out (hn : s.params.dataCap ≤ n) :
    exec (.readMem n) s =
      .next (raise .outOfBoundsRead Opcode.readMem.tag n (some (n : Int)) s) := by
  simp only [exec, execReadMem, bind, Except.bind, immediate_eq, loadCell_operand_of_le hn,
    finish_error]

theorem exec_writeMem_of_short (hd : depth s < 2) :
    exec (.writeMem n) s = .next (raiseUnderflow Opcode.writeMem.tag n s) := by
  simp only [exec, execWriteMem, bind, Except.bind, popTwo_of_short hd, finish_error]

theorem exec_writeMem_of_cell {rest : List Int} {v a : Int} {c : Nat}
    (hs : s.stack = rest ++ [v, a]) (hb : translate s.params a = some c) :
    exec (.writeMem n) s = .next (advance (setDataCell c v (setStack rest s))) := by
  simp only [exec, execWriteMem, bind, Except.bind, popTwo_of_append hs,
    storeCell_of_cell (s := setStack rest s) hb, finish_ok]

theorem exec_writeMem_of_out {rest : List Int} {v a : Int}
    (hs : s.stack = rest ++ [v, a]) (hb : translate s.params a = none) :
    exec (.writeMem n) s =
      .next (raise .outOfBoundsWrite Opcode.writeMem.tag n (some a) (setStack rest s)) := by
  simp only [exec, execWriteMem, bind, Except.bind, popTwo_of_append hs,
    storeCell_of_none (s := setStack rest s) hb, finish_error]

theorem exec_lessOrEq_of_empty (hs : s.stack = []) :
    exec (.lessOrEq n) s = .next (raiseUnderflow Opcode.lessOrEq.tag n s) := by
  simp only [exec, execLessOrEq, bind, Except.bind, popOne_of_empty hs, finish_error]

theorem exec_lessOrEq_of_out {rest : List Int} {right : Int} (hs : s.stack = rest ++ [right])
    (hn : s.params.dataCap ≤ n) :
    exec (.lessOrEq n) s =
      .next (raise .outOfBoundsRead Opcode.lessOrEq.tag n (some (n : Int)) (setStack rest s)) := by
  simp only [exec, execLessOrEq, bind, Except.bind, popOne_of_append hs, immediate_eq,
    loadCell_operand_of_le (s := setStack rest s) hn, finish_error]

theorem exec_lessOrEq_of_room {rest : List Int} {right : Int} (hs : s.stack = rest ++ [right])
    (hn : n < s.params.dataCap) (hf : stackFull (setStack rest s) = false) :
    exec (.lessOrEq n) s =
      .next (advance (setStack (rest ++ [comparison (dataCell s n) right]) s)) := by
  simp only [exec, execLessOrEq, bind, Except.bind, popOne_of_append hs,
    loadCell_of_cell (s := setStack rest s) (translate_immediate_of_lt hn), dataCell_setStack,
    push_of_room hf, setStack_stack, setStack_setStack, finish_ok]

end

/-! ### LoadConst and ReadMem -/

/-- Settles O20; the encoder's clause is `encodeWord_toNat` at LoadConst's tag and width. -/
theorem loadConstPushesOperand : Obligations.LoadConstPushesOperand :=
  ⟨fun n _ hroom => exec_loadConst_of_room n (stackFull_eq_false.mpr hroom),
    fun n d _ hd hle => exec_loadConst_of_full n (stackFull_iff.mpr ⟨d, hd, hle⟩),
    fun _ htag => decodeWord_of_tag (op := .loadConst) htag,
    encodeWord_toNat .loadConst, rfl, by decide, by decide, rfl, rfl, rfl, rfl⟩

/-- Settles O21; 99999 is masked to 1695 by the reference encoder's round trip. -/
theorem readMemPushesCell : Obligations.ReadMemPushesCell :=
  ⟨fun n _ hn hroom => exec_readMem_of_room n hn (stackFull_eq_false.mpr hroom),
    fun n _ hn => exec_readMem_of_out n hn,
    fun n d _ hn hd hle => exec_readMem_of_full n hn (stackFull_iff.mpr ⟨d, hd, hle⟩),
    fun w htag => ⟨decodeWord_of_tag (op := .readMem) htag, opndField_lt w⟩,
    encodeWord_toNat .readMem, by decide, decode_encodeOp .readMem 99999 [], rfl⟩

/-- LoadConst and ReadMem push one value, or raise and leave everything but `run` and `fault`. -/
theorem exec_pushing_cases {n : Nat} {i : Instr} {s t : State}
    (hi : i = .loadConst n ∨ i = .readMem n) (h : exec i s = .next t) :
    (∃ v, t = advance (setStack (s.stack ++ [v]) s)) ∨ ∃ k tag a, t = raise k tag n a s := by
  rcases hi with rfl | rfl
  · rcases execLoadConst_cases h with ⟨-, rfl⟩ | ⟨-, rfl⟩
    · exact .inl ⟨_, rfl⟩
    · exact .inr ⟨_, _, _, rfl⟩
  · rcases execReadMem_cases h with ⟨-, rfl⟩ | ⟨-, -, rfl⟩ | ⟨-, -, rfl⟩
    · exact .inr ⟨_, _, _, rfl⟩
    · exact .inl ⟨_, rfl⟩
    · exact .inr ⟨_, _, _, rfl⟩

/-- Settles O24. -/
theorem pushingInstructionsFrame : Obligations.PushingInstructionsFrame := by
  intro n i s t hi h
  rcases exec_pushing_cases hi h with ⟨v, rfl⟩ | ⟨k, tag, a, rfl⟩
  · exact ⟨fun _ => rfl, rfl, rfl, rfl, rfl, fun k hk => List.getElem?_append_left hk,
      .inl ⟨rfl, rfl, rfl, by simp⟩⟩
  · exact ⟨fun _ => rfl, rfl, rfl, rfl, rfl, fun _ _ => rfl, .inr ⟨rfl, rfl, rfl⟩⟩

/-! ### WriteMem -/

/-- Settles O25. -/
theorem writeMemStores : Obligations.WriteMemStores := by
  intro n s rest v a hs h0 hlt
  have hb : translate s.params a = some a.toNat := translate_eq_some.mpr ⟨by omega, by omega⟩
  refine ⟨_, exec_writeMem_of_cell n hs hb, by simp, fun b hne => ?_, rfl⟩
  rw [dataCell_advance, dataCell_setDataCell_ne hne, dataCell_setStack]

/-- Settles O26: these are the integers that translation refuses (D5). -/
theorem outOfBoundsWriteFaults : Obligations.OutOfBoundsWriteFaults :=
  fun n _ _ _ _ hs hout => exec_writeMem_of_out n hs (translate_eq_none.mpr hout)

/-- Settles O27: by the outcome of the two pops, then of the store. -/
theorem writeMemFrame : Obligations.WriteMemFrame := by
  intro n s t h
  rcases execWriteMem_cases h with ⟨hd, rfl⟩ | ⟨rest, v, a, hs, hstore⟩
  · have hpop := popTwo_of_short hd .writeMem n
    exact ⟨rfl, rfl, fun _ _ _ hok => by simp [hpop] at hok,
      fun _ _ => ⟨rfl, rfl, rfl, fun _ => rfl⟩⟩
  · have hpop := popTwo_of_append hs .writeMem n
    rcases hstore with ⟨hb, rfl⟩ | ⟨c, hb, rfl⟩
    · refine ⟨rfl, rfl, fun _ _ _ hok => ?_, fun _ herr => by simp [hpop] at herr⟩
      rw [hpop] at hok
      cases hok
      exact ⟨rfl, rfl, fun _ _ => rfl, .inr ⟨rfl, rfl, rfl⟩⟩
    · refine ⟨rfl, rfl, fun _ _ _ hok => ?_, fun _ herr => by simp [hpop] at herr⟩
      rw [hpop] at hok
      cases hok
      refine ⟨rfl, rfl, fun b hne => ?_, .inl ⟨rfl, rfl, rfl⟩⟩
      have hbc : b ≠ c := by
        rintro rfl
        exact hne hb
      rw [dataCell_advance, dataCell_setDataCell_ne hbc, dataCell_setStack]

/-- Settles O28: the two runs end alike, since which end it is depends on the stack and the bounds
alone, and the operand goes into the fault record only. -/
theorem writeMemOperandIgnored : Obligations.WriteMemOperandIgnored := by
  intro n m s t t' h h'
  rcases execWriteMem_cases h with ⟨hd, rfl⟩ | ⟨rest, v, a, hs, ⟨hb, rfl⟩ | ⟨c, hb, rfl⟩⟩
  · rw [exec_writeMem_of_short m hd] at h'
    cases h'
    exact ⟨rfl, rfl⟩
  · rw [exec_writeMem_of_out m hs hb] at h'
    cases h'
    exact ⟨rfl, rfl⟩
  · rw [exec_writeMem_of_cell m hs hb] at h'
    cases h'
    exact ⟨rfl, rfl⟩

/-- Settles O29: the two pops leave room for the push, and the cell read is the cell written. -/
theorem readMemSeesWriteMem : Obligations.ReadMemSeesWriteMem := by
  intro n s rest v c hs hc hw
  refine ⟨_, exec_writeMem_of_cell n hs (translate_eq_some.mpr ⟨rfl, hc⟩), ?_⟩
  have hroom : stackFull (advance (setDataCell c v (setStack rest s))) = false := by
    refine stackFull_eq_false.mpr fun d hd => ?_
    have hle := hw d hd
    rw [depth_of_append hs] at hle
    exact Nat.lt_of_succ_lt hle
  have hread := exec_readMem_of_room (s := advance (setDataCell c v (setStack rest s))) c hc hroom
  rw [dataCell_advance, dataCell_setDataCell_same] at hread
  exact hread

/-! ### LessOrEq -/

/-- Settles O30. -/
theorem lessOrEqCompares : Obligations.LessOrEqCompares :=
  fun n _ _ _ hs hn hw => exec_lessOrEq_of_room n hs hn (stackFull_setStack_of_popped hs hw)

/-- Settles O31. -/
theorem lessOrEqFrame : Obligations.LessOrEqFrame := by
  intro n s t h
  rcases execLessOrEq_cases h with ⟨hs, rfl⟩ | ⟨rest, right, hs, hend⟩
  · exact ⟨fun _ => rfl, rfl, rfl, rfl, fun hne => absurd hs hne, .inr ⟨rfl, rfl⟩⟩
  · have below : ∀ k, k + 1 < s.stack.length → s.stack[k]? = rest[k]? := by
      intro k hk
      rw [hs, List.getElem?_append_left (by simpa [hs] using hk)]
    rcases hend with ⟨-, rfl⟩ | ⟨-, -, rfl⟩ | ⟨-, -, rfl⟩
    · exact ⟨fun _ => rfl, rfl, rfl, rfl, fun _ => ⟨rfl, fun k hk => (below k hk).symm⟩,
        .inr ⟨rfl, rfl⟩⟩
    · refine ⟨fun _ => rfl, rfl, rfl, rfl, fun _ => ⟨rfl, fun k hk => ?_⟩,
        .inl ⟨rfl, rfl, rfl, by simp [hs]⟩⟩
      rw [below k hk]
      exact List.getElem?_append_left (by simpa [hs] using hk)
    · exact ⟨fun _ => rfl, rfl, rfl, rfl, fun _ => ⟨rfl, fun k hk => (below k hk).symm⟩,
        .inr ⟨rfl, rfl⟩⟩

/-- Settles O22: the pop before the push leaves room, so the overflow case needs a stack past its
limit. -/
theorem lessOrEqNeverOverflows : Obligations.LessOrEqNeverOverflows := by
  intro n s t hw hfault h r hr
  rcases execLessOrEq_cases h with
    ⟨-, rfl⟩ | ⟨rest, right, hs, ⟨-, rfl⟩ | ⟨-, -, rfl⟩ | ⟨-, hf, rfl⟩⟩
  · cases hr
    exact nofun
  · cases hr
    exact nofun
  · rw [advance_fault, setStack_fault, hfault] at hr
    cases hr
  · rw [stackFull_setStack_of_popped hs hw] at hf
    cases hf

/-! ### Reads out of bounds and stacks too short -/

/-- Settles O23. -/
theorem outOfBoundsReadFaults : Obligations.OutOfBoundsReadFaults :=
  fun n _ hn => ⟨exec_readMem_of_out n hn, fun _ _ hs => exec_lessOrEq_of_out n hs hn⟩

/-- Settles O32. -/
theorem stackUnderflowFaults : Obligations.StackUnderflowFaults := by
  refine fun n s => ⟨fun hd => ⟨_, exec_writeMem_of_short n hd, rfl⟩, fun hd => ?_⟩
  have hs : s.stack = [] := List.eq_nil_of_length_eq_zero (Nat.lt_one_iff.mp hd)
  exact ⟨_, exec_lessOrEq_of_empty n hs, rfl⟩

/-! ### The memories under every instruction -/

/-- No instruction changes code memory or a parameter, and the one that changes data memory is
WriteMem, by storing to a cell that exists. -/
theorem exec_memory {i : Instr} {s t : State} (h : exec i s = .next t) :
    t.params = s.params ∧ t.code = s.code ∧
      (t.data = s.data ∨ (∃ n, i = .writeMem n) ∧
        ∃ c v, c < s.params.dataCap ∧ t.data = (setDataCell c v s).data) := by
  cases i with
  | loadConst n =>
    rcases execLoadConst_cases h with ⟨-, rfl⟩ | ⟨-, rfl⟩ <;> exact ⟨rfl, rfl, .inl rfl⟩
  | readMem n =>
    rcases execReadMem_cases h with ⟨-, rfl⟩ | ⟨-, -, rfl⟩ | ⟨-, -, rfl⟩ <;>
      exact ⟨rfl, rfl, .inl rfl⟩
  | writeMem n =>
    rcases execWriteMem_cases h with ⟨-, rfl⟩ | ⟨rest, v, a, -, ⟨-, rfl⟩ | ⟨c, hb, rfl⟩⟩
    · exact ⟨rfl, rfl, .inl rfl⟩
    · exact ⟨rfl, rfl, .inl rfl⟩
    · exact ⟨rfl, rfl, .inr ⟨⟨n, rfl⟩, c, v, (translate_eq_some.mp hb).2, rfl⟩⟩
  | lessOrEq n =>
    rcases execLessOrEq_cases h with
      ⟨-, rfl⟩ | ⟨_, _, -, ⟨-, rfl⟩ | ⟨-, -, rfl⟩ | ⟨-, -, rfl⟩⟩ <;> exact ⟨rfl, rfl, .inl rfl⟩
  | sentinel =>
    obtain rfl : halt s = t := by simpa [exec_sentinel] using h
    exact ⟨rfl, rfl, .inl rfl⟩

/-- Settles O38. -/
theorem codeMemoryReadOnly : Obligations.CodeMemoryReadOnly := by
  refine ⟨fun i s t h => ?_, fun s t h => ?_, fun i s t hi h => ?_⟩
  · obtain ⟨hparams, hcode, -⟩ := exec_memory h
    exact ⟨hcode, hparams⟩
  · obtain ⟨-, hcase⟩ := step_case h
    exact ⟨hcase.code_eq, hcase.params_eq⟩
  · obtain ⟨-, -, hdata | ⟨⟨n, hn⟩, -⟩⟩ := exec_memory h
    · exact hdata
    · exact absurd hn (hi n)

/-- The canonical form is a property of the parameters and the two memories alone. -/
theorem Memory.wf_congr {s t : State} (hparams : t.params = s.params) (hcode : t.code = s.code)
    (hdata : t.data = s.data) (hs : Memory.wf s) : Memory.wf t := by
  unfold Memory.wf
  rw [hparams, hcode, hdata]
  exact hs

/-- Settles O41. -/
theorem execKeepsMemoryCanonical : Obligations.ExecKeepsMemoryCanonical := by
  intro i s t hs h
  obtain ⟨hparams, hcode, hdata | ⟨-, c, v, hc, hdata⟩⟩ := exec_memory h
  · exact Memory.wf_congr hparams hcode hdata hs
  · exact Memory.wf_congr (s := setDataCell c v s) hparams hcode hdata (setDataCell_wf v hs hc)

end Sys2Proof.Machine

/-! How a step and a run end: the three ends of a step, what a fault record says of the faulting
word (spec/60_exceptions.md sections 1 and 2), and straight-line runs (spec/40_cycle.md section 4). -/

namespace Sys2Proof.Machine

/-! ### The ends of a step -/

/-- Why the word at `ip` raises a fault of a kind (the "raised by" column of R120, with the
condition on the state). LessOrEq overflows only a stack that is past its finite depth already. -/
def FaultCause (s : State) : FaultKind → Prop
  | .unknownOpcode => wordNumber s % 8 ∈ [0, 3, 6, 7]
  | .stackUnderflow => wordNumber s % 8 = 2 ∧ depth s < 2 ∨ wordNumber s % 8 = 1 ∧ depth s < 1
  | .outOfBoundsRead => (wordNumber s % 8 = 4 ∨ wordNumber s % 8 = 1) ∧
      s.params.dataCap ≤ wordNumber s / 8 % 65536
  | .outOfBoundsWrite => wordNumber s % 8 = 2
  | .stackOverflow => (wordNumber s % 8 = 5 ∨ wordNumber s % 8 = 4) ∧ stackFull s = true ∨
      wordNumber s % 8 = 1 ∧ ¬ WithinDepth s

/-- What a fault's record says of the faulting word (R127), and the cause of its kind. -/
structure FaultOf (s : State) (r : FaultRecord) : Prop where
  ip : r.ip = s.ip
  tag : r.tag.toNat = wordNumber s % 8
  operand : r.operand = wordNumber s / 8 % 65536
  address : r.address ≠ none ↔ OutOfBounds r.kind
  cause : FaultCause s r.kind

/-- The three ends of a step (R86, R90, R129): a coarser view of `StepCase`. -/
inductive StepEnd (s t : State) : Prop
  | completed (hc : s.ip + 3 ≤ s.params.codeCap) (h0 : wordNumber s ≠ 0) (hrun : t.run = .running)
      (hip : t.ip = s.ip + 3) (hfault : t.fault = s.fault)
  | halted (h : s.params.codeCap < s.ip + 3 ∨ wordNumber s = 0) (ht : t = halt s)
  | faulted (hc : s.ip + 3 ≤ s.params.codeCap) (h0 : wordNumber s ≠ 0) (hrun : t.run = .faulted)
      (hip : t.ip = s.ip) (hdata : t.data = s.data) (r : FaultRecord) (hfault : t.fault = some r)
      (hr : FaultOf s r)

section
variable {s : State} {op : Opcode}

/-- A word with an opcode's tag is not the sentinel's. -/
theorem wordNumber_ne_zero_of_tag (ht : wordNumber s % 8 = op.tag.toNat) : wordNumber s ≠ 0 := by
  intro h0
  exact tag_ne_zero op (BitVec.eq_of_toNat_eq (show op.tag.toNat = 0 by omega))

/-- A handler's fault on a stated stack is described by its record. -/
theorem StepEnd.raise {k : FaultKind} {a : Option Int} {st : List Int}
    (hc : s.ip + 3 ≤ s.params.codeCap) (ht : wordNumber s % 8 = op.tag.toNat)
    (ha : a ≠ none ↔ OutOfBounds k) (hcause : FaultCause s k) :
    StepEnd s (raise k op.tag (wordNumber s / 8 % 65536) a (setStack st s)) :=
  .faulted hc (wordNumber_ne_zero_of_tag ht) rfl rfl rfl _ rfl ⟨rfl, ht.symm, rfl, ha, hcause⟩

/-- A handler's `StackUnderflow` is described by its record. -/
theorem StepEnd.raiseUnderflow (hc : s.ip + 3 ≤ s.params.codeCap)
    (ht : wordNumber s % 8 = op.tag.toNat) (hcause : FaultCause s .stackUnderflow) :
    StepEnd s (raiseUnderflow op.tag (wordNumber s / 8 % 65536) s) :=
  .faulted hc (wordNumber_ne_zero_of_tag ht) rfl rfl rfl _ rfl
    ⟨rfl, ht.symm, rfl, by simp [OutOfBounds], hcause⟩

end

/-- Each case of a step is one of the three ends. -/
theorem StepCase.stepEnd {s t : State} (hrun : s.run = .running) (h : StepCase s t) :
    StepEnd s t := by
  cases h with
  | halt h => exact .halted h rfl
  | loadConst hc ht | readMem hc ht | writeMem hc ht | lessOrEq hc ht =>
    exact .completed hc (by omega) hrun rfl rfl
  | unknownOpcode hc h0 ht u htag hopnd =>
    exact .faulted hc h0 rfl rfl rfl _ rfl ⟨rfl, htag, hopnd, by simp [OutOfBounds], ht⟩
  | loadConstFull hc ht hf =>
    exact .raise (st := s.stack) hc ht (by simp [OutOfBounds]) (.inl ⟨.inl ht, hf⟩)
  | readMemFull hc ht hb hf =>
    exact .raise (st := s.stack) hc ht (by simp [OutOfBounds]) (.inl ⟨.inr ht, hf⟩)
  | readMemOut hc ht hb =>
    exact .raise (st := s.stack) hc ht (by simp [OutOfBounds]) ⟨.inl ht, hb⟩
  | writeMemOut hc ht => exact .raise hc ht (by simp [OutOfBounds]) ht
  | writeMemShort hc ht hd => exact .raiseUnderflow hc ht (.inl ⟨ht, hd⟩)
  | lessOrEqFull hc ht rest right hs hb hf =>
    have hpast : ¬ WithinDepth s := fun hw => by simp [stackFull_setStack_of_popped hs hw] at hf
    exact .raise hc ht (by simp [OutOfBounds]) (.inr ⟨ht, hpast⟩)
  | lessOrEqOut hc ht rest right hs hb =>
    exact .raise hc ht (by simp [OutOfBounds]) ⟨.inr ht, hb⟩
  | lessOrEqEmpty hc ht hs => exact .raiseUnderflow hc ht (.inr ⟨ht, by simp [depth, hs]⟩)

theorem step_end {s t : State} (h : step s = .next t) : StepEnd s t := by
  obtain ⟨hr, hcase⟩ := step_case h
  exact hcase.stepEnd hr

/-- Settles O16. -/
theorem stepHasThreeOutcomes : Obligations.StepHasThreeOutcomes := by
  intro s hr
  obtain ⟨t, h⟩ := step_next_of_running hr
  refine ⟨t, h, ?_⟩
  cases step_end h with
  | completed hc h0 hrun hip hfault => exact .inl ⟨hrun, hip, hfault⟩
  | halted _ ht => exact .inr (.inl ⟨ht ▸ rfl, ht⟩)
  | faulted hc h0 hrun hip hdata r hfault hr => exact .inr (.inr ⟨hrun, hip, r, hfault, hr.ip⟩)

/-- Settles O18. -/
theorem haltedOnlyAtEndOrSentinel : Obligations.HaltedOnlyAtEndOrSentinel := by
  intro s t h
  cases step_end h with
  | completed hc h0 hrun => exact iff_of_false (by simp [hrun]) (by omega)
  | halted h ht => exact iff_of_true (ht ▸ rfl) h
  | faulted hc h0 hrun => exact iff_of_false (by simp [hrun]) (by omega)

/-! ### Fetch and decode -/

/-- Settles O11: the three bytes at `ip` decode as the fetched word does. -/
theorem stepRunsDecodedInstruction : Obligations.StepRunsDecodedInstruction := by
  intro s i rest hr hc hdec
  cases hd : decodeWord (fetchWord s) with
  | ok j =>
    rw [decode_cons3_of_ok hd] at hdec
    cases hdec
    exact step_of_decoded hr hc hd
  | error u =>
    rw [decode_cons3_of_error hd] at hdec
    cases hdec

/-- Settles O14. -/
theorem unknownOpcodeFaults : Obligations.UnknownOpcodeFaults := by
  intro s hr hc h0 ht
  rw [← fetchWord_toNat] at h0 ht ⊢
  have hne : fetchWord s ≠ 0 := fun e => h0 (by rw [e]; rfl)
  exact step_of_unknownOpcode hr hc (decodeWord_of_unknownTag hne ht)

/-- Settles O19: `step_withCode` at a code memory with the same three bytes. -/
theorem stepReadsOnlyItsWord : Obligations.StepReadsOnlyItsWord :=
  fun _ _ _ hsame h => step_withCode (fun _ => fetchWord_withCode hsame) h

/-! ### Faults -/

/-- A record found after a step from a state without one describes the word the step ran. -/
theorem faultOf_of_step {s t : State} (hnone : s.fault = none) (h : step s = .next t)
    {r : FaultRecord} (hr : t.fault = some r) : s.ip + 3 ≤ s.params.codeCap ∧ FaultOf s r := by
  cases step_end h with
  | completed hc h0 hrun hip hfault => simp [hfault, hnone] at hr
  | halted _ ht => simp [ht, hnone] at hr
  | faulted hc h0 hrun hip hdata r' hfault hof =>
    obtain rfl : r' = r := by simpa [hfault] using hr
    exact ⟨hc, hof⟩

/-- Settles O33. -/
theorem faultRecordDescribesWord : Obligations.FaultRecordDescribesWord := by
  intro s t h hrun
  cases step_end h with
  | completed hc h0 hrun' => simp [hrun'] at hrun
  | halted _ ht => simp [ht] at hrun
  | faulted hc h0 _ hip hdata r hfault hr =>
    obtain ⟨-, hcase⟩ := step_case h
    exact ⟨hip, hdata, hcase.code_eq, r, hfault, hr.ip, hr.tag, hr.operand, hr.address⟩

/-- Settles O34: within the finite depth LessOrEq's overflow cannot happen. -/
theorem faultKindsByTag : Obligations.FaultKindsByTag := by
  intro s t hw h hrun
  cases step_end h with
  | completed hc h0 hrun' => simp [hrun'] at hrun
  | halted _ ht => simp [ht] at hrun
  | faulted hc h0 _ hip hdata r hfault hr =>
    refine ⟨r, hfault, ?_⟩
    have hcause := hr.cause
    cases hk : r.kind <;> rw [hk] at hcause
    case unknownOpcode | stackUnderflow | outOfBoundsWrite => exact hcause
    case outOfBoundsRead => exact hcause.1
    case stackOverflow =>
      rcases hcause with ⟨htag, -⟩ | ⟨-, hpast⟩
      · exact htag
      · exact absurd hw hpast

/-- Settles O35: an operand field is below 65536, so it names a cell. -/
theorem noReadFaultWithFullDataMemory : Obligations.NoReadFaultWithFullDataMemory := by
  intro s t hcap hnone h r hr hk
  obtain ⟨-, hof⟩ := faultOf_of_step hnone h hr
  have hcause := hof.cause
  rw [hk] at hcause
  obtain ⟨-, hout⟩ := hcause
  omega

/-- Settles O36: while a word is left to run the depth is below `CODE_CAP / 3`, so no stack of that
size is full, and every stack is within its depth. -/
theorem overflowUnreachable : Obligations.OverflowUnreachable := by
  intro s t hs hlimit h r hr hk
  obtain ⟨hrun, -⟩ := step_case h
  obtain ⟨hc, hof⟩ := faultOf_of_step (hs.fault_eq_none hrun) h hr
  have hcause := hof.cause
  rw [hk] at hcause
  rcases hcause with ⟨-, hfull⟩ | ⟨-, hpast⟩
  · obtain ⟨d, hd, hle⟩ := stackFull_iff.mp hfull
    have hbound := hs.three_mul_depth_le hrun
    have hcap := hlimit d hd
    omega
  · exact hpast (hs.withinDepth hrun)

/-- Settles O37. -/
theorem faultCodes : Obligations.FaultCodes :=
  ⟨fun s h => by rw [faultCode, h], rfl, fun s r h => by rw [faultCode, h]⟩

/-! ### Completed steps -/

/-- Settles O39. -/
theorem onlyWriteMemWritesData : Obligations.OnlyWriteMemWritesData := by
  intro s t h hne
  obtain ⟨hr, hcase⟩ := step_case h
  cases hcase with
  | writeMem hc ht => exact ⟨ht, hr⟩
  | _ => exact absurd rfl hne

/-- Settles O40: a step that ends Running is one of the four handlers' completions. -/
theorem depthChangesByFixedAmount : Obligations.DepthChangesByFixedAmount := by
  intro s t h hrun
  obtain ⟨-, hcase⟩ := step_case h
  cases hcase with
  | loadConst hc ht | readMem hc ht =>
    have hd : ∀ v : Int, (s.stack ++ [v]).length = depth s + 1 := fun v => List.length_append
    exact ⟨fun _ => hd _, by omega, by omega⟩
  | writeMem hc ht rest v a c hs =>
    exact ⟨by omega, fun _ => (depth_of_append hs).symm, by omega⟩
  | lessOrEq hc ht rest right hs =>
    refine ⟨by omega, by omega, fun _ => ?_⟩
    rw [depth_of_append hs]
    exact List.length_append
  | _ => cases hrun

/-! ### Runs -/

theorem run_succ_of_fault {s : State} {r : Fault} (h : step s = .fault r) (k : Nat) :
    Host.Core.run Sys2Proof.core (k + 1) s = .fault r := by
  simp only [Host.Core.run]
  rw [show Sys2Proof.core.step s = .fault r from h]

/-- Settles O17: the first step is the sentinel's, and `Halted` has no step. -/
theorem nothingAfterSentinelRuns : Obligations.NothingAfterSentinelRuns := by
  intro s hr hc h0
  have hstep : step s = .next (halt s) := sentinelHalts.2 s hr hc h0
  refine ⟨run_succ_of_next hstep 0, fun k => ?_⟩
  rw [run_succ_of_next hstep]
  exact run_succ_of_fault rfl k

/-- A step that ends Running ran a whole word and is 3 bytes further (R86). -/
theorem ip_of_step_running {s t : State} (h : step s = .next t) (hrun : t.run = .running) :
    s.ip + 3 ≤ s.params.codeCap ∧ t.ip = s.ip + 3 := by
  cases step_end h with
  | completed hc _ _ hip => exact ⟨hc, hip⟩
  | halted _ ht => simp [ht] at hrun
  | faulted _ _ hrun' => simp [hrun'] at hrun

/-- A run that is still Running started Running: no step leads out of a terminal state (R80). -/
theorem running_of_run_running {k : Nat} {s t : State}
    (h : Host.Core.run Sys2Proof.core k s = .next t) (hrun : t.run = .running) :
    s.run = .running := by
  cases k with
  | zero =>
    cases h
    exact hrun
  | succ k =>
    obtain ⟨u, hu, -⟩ := run_succ_cases h
    exact (step_case hu).1

/-- Settles O47, by induction on the number of steps. -/
theorem runIsStraightLine : Obligations.RunIsStraightLine := by
  intro k
  induction k with
  | zero =>
    intro s t h _
    cases h
    rfl
  | succ k ih =>
    intro s t h hrun
    obtain ⟨u, hu, hk⟩ := run_succ_cases h
    obtain ⟨-, hip⟩ := ip_of_step_running hu (running_of_run_running hk hrun)
    rw [ih u t hk hrun, hip]
    omega

/-- Settles O46, by induction on the number of whole words left: a step either ends the run or uses
one of them up. -/
theorem runEndsWithinBound : Obligations.RunEndsWithinBound := by
  intro s hr
  induction hm : (s.params.codeCap - s.ip) / 3 generalizing s with
  | zero =>
    obtain ⟨t, ht⟩ := step_next_of_running hr
    refine ⟨1, t, le_rfl, run_succ_of_next ht 0, fun hrun => ?_⟩
    obtain ⟨hc, -⟩ := ip_of_step_running ht hrun
    omega
  | succ m ih =>
    obtain ⟨t, ht⟩ := step_next_of_running hr
    by_cases hrun : t.run = .running
    · obtain ⟨hc, hip⟩ := ip_of_step_running ht hrun
      have hleft : (t.params.codeCap - t.ip) / 3 = m := by
        rw [(step_case ht).2.params_eq, hip]
        omega
      obtain ⟨k, u, hk, hu, hend⟩ := ih t hrun hleft
      exact ⟨k + 1, u, by omega, by rw [run_succ_of_next ht, hu], hend⟩
    · exact ⟨1, t, by omega, run_succ_of_next ht 0, hrun⟩

end Sys2Proof.Machine

/-! The host's side of a run: launch, reset, read back and the listing of data cells
(spec/70_reset_and_hazards.md). -/

namespace Sys2Proof.Machine

/-! ### Launch and reset -/

/-- What a launch that answered a state has checked, and the state it answered (R142, R143). -/
theorem launch_eq_ok {p : Params} {program : List Byte} {presets : List (Nat × Int)} {s : State}
    (h : launch p program presets = .ok s) :
    program.length ≤ p.codeCap ∧ (∀ e ∈ presets, e.1 < p.dataCap) ∧
      s = { params := p, run := .running, ip := 0, stack := [], code := imageCells 0 program,
            data := presetCells p presets, fault := none, freeCount := 0 } := by
  unfold launch at h
  split at h
  · cases h
  · next hlen =>
    split at h
    · next hpre =>
      cases h
      exact ⟨by omega, by simpa using hpre, rfl⟩
    · cases h

/-- Settles O44: `ip` and the depth are 0, and both memories are canonical as loaded. -/
theorem launchHasInv : Obligations.LaunchHasInv := by
  intro p program presets s h
  obtain ⟨hlen, hpre, rfl⟩ := launch_eq_ok h
  obtain ⟨hcode, -⟩ := imageCells_wf program (a := 0) (cap := p.codeCap) (by omega)
  exact
    { ipAligned := rfl
      ipInCode := Nat.zero_le _
      memory := ⟨hcode, presetCells_wf hpre⟩
      faultedIff := by simp
      record := nofun
      depthByWords := fun _ => le_rfl
      depthByLimit := fun _ d _ => Nat.zero_le d }

/-- Settles O50, by evaluation of the launch. -/
theorem emptyLaunchIsReset : Obligations.EmptyLaunchIsReset := rfl

/-- Settles O43: the reset state is a launch's. -/
theorem resetHasInv : Obligations.ResetHasInv :=
  launchHasInv Params.standard [] [] State.reset emptyLaunchIsReset

/-- Settles O48, by evaluation of the reset state's fields. -/
theorem resetValues : Obligations.ResetValues :=
  ⟨rfl, rfl, rfl, rfl, rfl, rfl, rfl, fun _ => rfl, fun _ => rfl⟩

/-- The last preset of a cell stands (R143). -/
theorem cellRead_presetCells_last (p : Params) (before after : List (Nat × Int)) (a : Nat) (v : Int)
    (h : ∀ e ∈ after, e.1 ≠ a) :
    cellRead (initialData p) (presetCells p (before ++ (a, v) :: after)) a = v := by
  rw [presetCells, List.foldl_append, List.foldl_cons, cellRead_foldl_write p after _ h,
    cellRead_write_same]

/-- Settles O49. -/
theorem launchLoadsProgram : Obligations.LaunchLoadsProgram := by
  intro p program presets
  refine ⟨fun hlong => if_pos hlong, fun hlen hpre =>
    ⟨_, launch_of_fits hlen hpre, rfl, rfl, rfl, rfl, rfl, fun a => ?_, fun a hnone => ?_, ?_⟩⟩
  · exact (cellRead_imageCells program 0 a).trans (if_pos (Nat.zero_le a))
  · exact cellRead_foldl_write p presets [] hnone
  · rintro before after a v rfl hlast
    exact cellRead_presetCells_last p before after a v hlast

/-! ### Reading back -/

theorem observedStack_of_stated {s : State} (h : StackStated s) :
    observedStack s = some s.stack := by
  unfold observedStack
  split
  · next hfault => exact absurd rfl (h _ hfault)
  · rfl

theorem observedStack_of_not_stated {s : State} (h : ¬ StackStated s) :
    observedStack s = none := by
  obtain ⟨r, hr⟩ := not_forall.mp h
  obtain ⟨hfault, hkind⟩ := Classical.not_imp.mp hr
  obtain ⟨kind, ip, tag, operand, address⟩ := r
  obtain rfl : kind = .stackUnderflow := not_not.mp hkind
  simp [observedStack, hfault]

theorem readBack_of_running {s : State} (h : s.run = .running) : readBack s = none := by
  simp [readBack, h]

theorem readBack_of_ended {s : State} (h : Ended s) :
    readBack s =
      some { run := s.run, fault := s.fault, ip := s.ip, stack := observedStack s } := by
  unfold readBack
  split
  · next hr => exact absurd hr h
  · rfl

theorem readBackCell_of_ended {s : State} (h : Ended s) (a : Nat) :
    readBackCell s a = (translate s.params (a : Int)).map (dataCell s) := by
  unfold readBackCell
  split
  · next hr => exact absurd hr h
  · rfl

/-- Settles O51. -/
theorem readBackAfterEnd : Obligations.ReadBackAfterEnd := by
  intro s
  refine ⟨⟨fun h => ?_, readBack_of_running⟩, fun h a => by simp [readBackCell, h], fun h a => ?_,
    fun b hb => ?_⟩
  · by_contra hend
    simp [readBack_of_ended hend] at h
  · rw [readBackCell_of_ended h]
    split
    · next ha => rw [translate_eq_some.mpr ⟨rfl, ha⟩, Option.map_some]
    · next ha => rw [translate_eq_none.mpr (.inr (by omega)), Option.map_none]
  · by_cases hr : s.run = .running
    · simp [readBack_of_running hr] at hb
    · obtain rfl : _ = b := by simpa [readBack_of_ended hr] using hb
      exact ⟨rfl, rfl, rfl, observedStack_of_stated, observedStack_of_not_stated⟩

/-! ### Listing a range of cells -/

theorem exportRange_of_ended {s : State} (h : Ended s) (start last : Nat) :
    exportRange s start last =
      if last < start then .error .invalidRange
      else .ok (exportCells s start (min (last + 1) s.params.dataCap - start)) := by
  unfold exportRange
  split
  · next hr => exact absurd hr h
  · rfl

/-- Settles O52: record `k` is within the listed length exactly where its address is in the range
and in data memory. -/
theorem exportYieldsRange : Obligations.ExportYieldsRange := by
  intro s start last
  refine ⟨fun h => by simp [exportRange, h], fun h hlt => ?_, fun h hle => ?_⟩
  · rw [exportRange_of_ended h, if_pos hlt]
  · refine ⟨_, (exportRange_of_ended h start last).trans (if_neg (by omega)), fun k => ?_⟩
    rw [exportCells_getElem?]
    exact if_congr (by omega) rfl rfl

end Sys2Proof.Machine
